-- ==== Sys2Proof/Word.lean ====
section
/-! DEFINITION. The word types of the CHIP-8 CORE: what the spec treats as bits (00_scope.md R7, R9, R10). -/

namespace Sys2Proof

/-- An 8-bit value: a general register, a timer, SP, a byte of memory (R7). -/
abbrev Byte := BitVec 8

/-- A 16-bit value: an opcode, I, PC, a stack slot (R7). -/
abbrev Word := BitVec 16

/-- A 12-bit address operand `nnn` (R54, R55). -/
abbrev Addr12 := BitVec 12

/-- A 4-bit slice of an opcode (R14 "Nibble"). -/
abbrev Nibble := BitVec 4

/-- The number of a general register V0-VF (R16). -/
abbrev Reg := Fin 16

/-- The host's sample of the 16 key levels: bit k is 1 when key k is down (R29, R123 `keys[15:0]`). -/
abbrev KeyLevels := BitVec 16

/-- The display: 32 rows of 64 one-bit cells, DISP_W x DISP_H (R7, R26). Bit c of row r is the cell at column c and row r,
which is `Disp[r * 64 + c]` of the flat array (R27). -/
abbrev DisplayCells := Vector (BitVec 64) 32

end Sys2Proof
end

