-- ==== Sys2Proof/Config.lean ====
section
/-! DEFINITION. What an implementation fixes: the sizes of R7, the parameters of R8 and the free values the spec
leaves open. The defaults of the parameters stand in Machine/Defaults.lean. -/

namespace Sys2Proof

/-- SUBDECODE_0E: which opcode slice selects the sub-variants of families 0x0 and 0xE (R8, R59, R61, D4). -/
inductive SubDecode where
  /-- op[7:0] selects (the spec's default). -/
  | lowByte
  /-- op[3:0] selects. -/
  | lowNibble
  deriving DecidableEq, Repr

/-- SPRITE_EDGE_MODE: what happens to sprite pixels past the right or bottom edge (R8, R101, R102, D9). -/
inductive EdgeMode where
  /-- The flat index is not re-wrapped (the spec's default, R101). -/
  | spill
  /-- Pixels off the grid are skipped (R102). -/
  | clip
  /-- Column and row are each reduced again (R102). -/
  | wrap
  deriving DecidableEq, Repr

/-- SHIFT_FLAG: the value SHR and SHL leave in VF (R8, R86, R88, D6). -/
inductive ShiftFlag where
  /-- 0 or 1 (the spec's default). -/
  | bit
  /-- The masked bit in place. -/
  | raw
  deriving DecidableEq, Repr

/-- The parameters of R8, all seven. They are fixed when the model is built and no instruction reads or writes them
(R31): the first three decide decoding and instructions, the others what reset leaves (R129-R133). -/
structure Params where
  subDecode : SubDecode
  edgeMode : EdgeMode
  shiftFlag : ShiftFlag
  /-- RESET_PC. -/
  resetPc : Word
  /-- FONT: 16 glyphs of 5 bytes, from 0x050 on. -/
  font : Vector (Vector Byte 5) 16
  /-- MEM_INIT: the bytes outside the font, by address; an address that is not listed holds 0x00. -/
  memInit : List Host.Cell
  /-- DISPLAY_INIT. -/
  displayInit : DisplayCells
  deriving DecidableEq, Repr

namespace Config

/-- MEM_SIZE (R7). -/
abbrev memSize : Nat := 4096

/-- FONT_BASE (R7). -/
abbrev fontBase : Nat := 0x050

/-- The 16 glyphs of GLYPH_BYTES = 5 bytes each (R7). -/
abbrev fontBytes : Nat := 80

/-- PROG_BASE (R7). -/
abbrev progBase : Nat := 0x200

/-- PROG_MAX (R7). -/
abbrev progMax : Nat := 3584

/-- DISP_W x DISP_H (R7). -/
abbrev displayCells : Nat := 2048

/-- FREE VALUE. The key levels sampled by the step with this number, where the host has set none (R29, R135; log 13). -/
opaque freeKeys : Nat → KeyLevels

/-- FREE VALUE. The random byte of the step with this number, where the host has set none (R30, U11; log 14). -/
opaque freeRand : Nat → Byte

/-- FREE VALUE. What the port `fault_code` shows while no fault is recorded (R129 "code and info unspecified"; log 11). -/
opaque idleFaultCode : Nat → BitVec 3

/-- FREE VALUE. What the port `fault_info` shows while no fault is recorded (R129; log 11). -/
opaque idleFaultInfo : Nat → BitVec 32

end Config

end Sys2Proof
end

