-- ==== Sys2Proof/Machine/Flags.lean ====
section
/-! DEFINITION. The flag computations: the byte each flag-setting instruction leaves in VF (10_state.md R18). DRW's flag
is the blit's own (Machine/Display.lean). -/

namespace Sys2Proof.Machine

/-- A condition as VF holds it: 1 or 0 (R18). -/
def flagByte (b : Bool) : Byte := if b then 1#8 else 0#8

/-- Carry of Vx + Vy: 1 if the sum exceeds 255 (R84). -/
def carryFlag (a b : Byte) : Byte := flagByte (decide (255 < a.toNat + b.toNat))

/-- Not-borrow of `a - b`, the strict comparison `a > b` (R85, R87). -/
def notBorrowFlag (a b : Byte) : Byte := flagByte (decide (b.toNat < a.toNat))

/-- Bit 0 before the right shift; both settings of SHIFT_FLAG give this value (R86). -/
def shiftRightFlag (a : Byte) : Byte := a &&& 0x01#8

/-- Bit 7 before the left shift, as SHIFT_FLAG says (R88). -/
def shiftLeftFlag (setting : ShiftFlag) (a : Byte) : Byte :=
  match setting with
  | .bit => (a >>> 7) &&& 0x01#8
  | .raw => a &&& 0x80#8

end Sys2Proof.Machine
end

