-- ==== Sys2Proof/Machine/Defaults.lean ====
section
/-! DEFINITION. The default settings of the parameters (00_scope.md R8, 92_eei_decisions.md D4, D6, D9, D15-D18). -/

namespace Sys2Proof.Machine

/-- RESET_PC, default 0x200 (R130, D15). -/
def defaultResetPc : Word := 0x200#16

/-- DISPLAY_INIT, default all off (R133, D17). -/
def defaultDisplay : DisplayCells := Vector.replicate 32 0#64

/-- FONT: the glyphs of the digits 0 to F in order (R131; the bytes are PRESUMED, spec G3, log 6). -/
def defaultFont : Vector (Vector Byte 5) 16 :=
  #v[#v[0xF0, 0x90, 0x90, 0x90, 0xF0],
     #v[0x20, 0x60, 0x20, 0x20, 0x70],
     #v[0xF0, 0x10, 0xF0, 0x80, 0xF0],
     #v[0xF0, 0x10, 0xF0, 0x10, 0xF0],
     #v[0x90, 0x90, 0xF0, 0x10, 0x10],
     #v[0xF0, 0x80, 0xF0, 0x10, 0xF0],
     #v[0xF0, 0x80, 0xF0, 0x90, 0xF0],
     #v[0xF0, 0x10, 0x20, 0x40, 0x40],
     #v[0xF0, 0x90, 0xF0, 0x90, 0xF0],
     #v[0xF0, 0x90, 0xF0, 0x10, 0xF0],
     #v[0xF0, 0x90, 0xF0, 0x90, 0x90],
     #v[0xE0, 0x90, 0xE0, 0x90, 0xE0],
     #v[0xF0, 0x80, 0x80, 0x80, 0xF0],
     #v[0xE0, 0x90, 0x90, 0x90, 0xE0],
     #v[0xF0, 0x80, 0xF0, 0x80, 0xF0],
     #v[0xF0, 0x80, 0xF0, 0x80, 0x80]]

/-- The defaults of R8. MEM_INIT lists nothing: the spec leaves those bytes unconstrained; DESIGN CHOICE 0x00, unsafe
(R132, D16; log 5). -/
def defaultParams : Params :=
  { subDecode := .lowByte
    edgeMode := .spill
    shiftFlag := .bit
    resetPc := defaultResetPc
    font := defaultFont
    memInit := []
    displayInit := defaultDisplay }

/-- FONT's byte at 0x050 + k, for k < 80: row k mod 5 of the glyph of digit k / 5 (R131). -/
def fontByte (p : Params) (k : Nat) : Byte :=
  if h : k / 5 < 16 then p.font[k / 5][k % 5]'(Nat.mod_lt k (by decide)) else 0x00#8

/-- MEM_INIT's byte at an address outside the font (R132). -/
def memInitByte (cells : List Host.Cell) (a : Nat) : Byte :=
  match cells with
  | [] => 0x00#8
  | c :: rest => if c.1 = a then c.2 else memInitByte rest a

/-- The bytes of memory right after reset: FONT at 0x050-0x09F, MEM_INIT elsewhere (R129). -/
def resetByte (p : Params) (a : Nat) : Byte :=
  if Config.fontBase ≤ a ∧ a < Config.fontBase + Config.fontBytes then fontByte p (a - Config.fontBase)
  else memInitByte p.memInit a

end Sys2Proof.Machine
end

