-- ==== Sys2Proof/Syntax.lean ====
section
/-! DEFINITION. The 35 instructions, one constructor per row of spec/opcode_table.json (30_encoding.md R58, R66).
Bits of the opcode that an instruction ignores are kept as an operand named `ign` (or `y` of the shifts), because
Fault.info holds the whole opcode (R33, R112; log 18). No meaning depends on them otherwise. -/

namespace Sys2Proof

inductive Instr where
  /-- SYS nnn, `0nnn` (R68). -/
  | sys (nnn : Addr12)
  /-- CLS, `00E0` (R98). `ign` is op[11:4]. -/
  | cls (ign : BitVec 8)
  /-- RET, `00EE` (R69). `ign` is op[11:4]. -/
  | ret (ign : BitVec 8)
  /-- JP nnn, `1nnn` (R70). -/
  | jp (nnn : Addr12)
  /-- CALL nnn, `2nnn` (R71). -/
  | call (nnn : Addr12)
  /-- SE Vx, kk, `3xkk` (R72). -/
  | seImm (x : Reg) (kk : Byte)
  /-- SNE Vx, kk, `4xkk` (R73). -/
  | sneImm (x : Reg) (kk : Byte)
  /-- SE Vx, Vy, `5xy?` (R74). `ign` is op[3:0]. -/
  | seReg (x y : Reg) (ign : Nibble)
  /-- LD Vx, kk, `6xkk` (R78). -/
  | ldImm (x : Reg) (kk : Byte)
  /-- ADD Vx, kk, `7xkk` (R79). -/
  | addImm (x : Reg) (kk : Byte)
  /-- LD Vx, Vy, `8xy0` (R80). -/
  | ldReg (x y : Reg)
  /-- OR Vx, Vy, `8xy1` (R81). -/
  | orReg (x y : Reg)
  /-- AND Vx, Vy, `8xy2` (R82). -/
  | andReg (x y : Reg)
  /-- XOR Vx, Vy, `8xy3` (R83). -/
  | xorReg (x y : Reg)
  /-- ADD Vx, Vy, `8xy4` (R84). -/
  | addReg (x y : Reg)
  /-- SUB Vx, Vy, `8xy5` (R85). -/
  | sub (x y : Reg)
  /-- SHR Vx, `8xy6` (R86). `y` is ignored. -/
  | shr (x y : Reg)
  /-- SUBN Vx, Vy, `8xy7` (R87). -/
  | subn (x y : Reg)
  /-- SHL Vx, `8xyE` (R88). `y` is ignored. -/
  | shl (x y : Reg)
  /-- SNE Vx, Vy, `9xy?` (R75). `ign` is op[3:0]. -/
  | sneReg (x y : Reg) (ign : Nibble)
  /-- LD I, nnn, `Annn` (R91). -/
  | ldI (nnn : Addr12)
  /-- JP V0, nnn, `Bnnn` (R76). -/
  | jpV0 (nnn : Addr12)
  /-- RND Vx, kk, `Cxkk` (R89). -/
  | rnd (x : Reg) (kk : Byte)
  /-- DRW Vx, Vy, n, `Dxyn` (R99). -/
  | drw (x y : Reg) (n : Fin 16)
  /-- SKP Vx, `Ex9E` (R105). `ign` is op[7:4]. -/
  | skp (x : Reg) (ign : Nibble)
  /-- SKNP Vx, `ExA1` (R106). `ign` is op[7:4]. -/
  | sknp (x : Reg) (ign : Nibble)
  /-- LD Vx, DT, `Fx07` (R107). -/
  | ldVxDt (x : Reg)
  /-- LD Vx, K, `Fx0A` (R108). -/
  | ldVxK (x : Reg)
  /-- LD DT, Vx, `Fx15` (R109). -/
  | ldDtVx (x : Reg)
  /-- LD ST, Vx, `Fx18` (R110). -/
  | ldStVx (x : Reg)
  /-- ADD I, Vx, `Fx1E` (R92). -/
  | addIVx (x : Reg)
  /-- LD F, Vx, `Fx29` (R93). -/
  | ldFVx (x : Reg)
  /-- LD B, Vx, `Fx33` (R94). -/
  | ldBVx (x : Reg)
  /-- LD [I], Vx, `Fx55` (R95). -/
  | ldMemVx (x : Reg)
  /-- LD Vx, [I], `Fx65` (R96). -/
  | ldVxMem (x : Reg)
  deriving DecidableEq, Repr

end Sys2Proof
end

