-- ==== Sys2Proof/WellFormed.lean ====
section
/-! DEFINITION. Which terms of `Instr` stand for a word: the checks that the operand types do not already make. They
concern families 0x0 and 0xE, whose second level follows SUBDECODE_0E (30_encoding.md R59, R61). -/

namespace Sys2Proof

/-- The word `0nnn` is CLS or RET under this setting, so it is not SYS (R59, R68). -/
def isClsOrRet (m : SubDecode) (nnn : Addr12) : Bool :=
  match m with
  | .lowByte => nnn.extractLsb' 0 8 == 0xE0#8 || nnn.extractLsb' 0 8 == 0xEE#8
  | .lowNibble => nnn.extractLsb' 0 4 == 0x0#4 || nnn.extractLsb' 0 4 == 0xE#4

/-- The bits op[7:4] of a family-0 or family-E word have the value the low-byte setting asks for; the low-nibble
setting ignores them (R59, R61). -/
def highNibbleOk (m : SubDecode) (nibble want : Nibble) : Bool :=
  match m with
  | .lowByte => nibble == want
  | .lowNibble => true

/-- The instruction is the reading of some word under the setting `m` of SUBDECODE_0E. -/
def Instr.wf (m : SubDecode) (i : Instr) : Bool :=
  match i with
  | .sys nnn => !isClsOrRet m nnn
  | .cls ign => highNibbleOk m (ign.extractLsb' 0 4) 0xE#4
  | .ret ign => highNibbleOk m (ign.extractLsb' 0 4) 0xE#4
  | .skp _ ign => highNibbleOk m ign 0x9#4
  | .sknp _ ign => highNibbleOk m ign 0xA#4
  | .jp _ => true
  | .call _ => true
  | .seImm _ _ => true
  | .sneImm _ _ => true
  | .seReg _ _ _ => true
  | .ldImm _ _ => true
  | .addImm _ _ => true
  | .ldReg _ _ => true
  | .orReg _ _ => true
  | .andReg _ _ => true
  | .xorReg _ _ => true
  | .addReg _ _ => true
  | .sub _ _ => true
  | .shr _ _ => true
  | .subn _ _ => true
  | .shl _ _ => true
  | .sneReg _ _ _ => true
  | .ldI _ => true
  | .jpV0 _ => true
  | .rnd _ _ => true
  | .drw _ _ _ => true
  | .ldVxDt _ => true
  | .ldVxK _ => true
  | .ldDtVx _ => true
  | .ldStVx _ => true
  | .addIVx _ => true
  | .ldFVx _ => true
  | .ldBVx _ => true
  | .ldMemVx _ => true
  | .ldVxMem _ => true

end Sys2Proof
end

