-- ==== Sys2Proof/Decode.lean ====
section
/-! DEFINITION. The decoder (30_encoding.md R53-R65) and, after it, the encoder written from the same tables. The opcode
values are the standard CHIP-8 ones (PRESUMED, spec D3, G1; log 1). -/

namespace Sys2Proof

/-- Why a decoder gives no instruction. -/
inductive Reject where
  /-- No rule maps the opcode (R64). The step goes on and does nothing but tick: safe. -/
  | unrecognised (op : Word)
  /-- Fewer than two bytes were given to the byte-level decoder: never met by a step, whose fetch checks its bounds
  first (R42): safe. -/
  | truncated
  deriving DecidableEq, Repr

namespace Opcode

/-- op[15:12], the family (R54). -/
def family (op : Word) : Nibble := op.extractLsb' 12 4

/-- x = op[11:8] (R12, R54). -/
def x (op : Word) : Reg := (op.extractLsb' 8 4).toFin

/-- y = op[7:4] (R12, R54). -/
def y (op : Word) : Reg := (op.extractLsb' 4 4).toFin

/-- kk = op[7:0] (R12, R54). -/
def kk (op : Word) : Byte := op.extractLsb' 0 8

/-- nnn = op[11:0] (R12, R54). -/
def nnn (op : Word) : Addr12 := op.extractLsb' 0 12

/-- n = op[3:0] as a row count (R12, R54). -/
def n (op : Word) : Fin 16 := (op.extractLsb' 0 4).toFin

/-- op[3:0]. -/
def low (op : Word) : Nibble := op.extractLsb' 0 4

/-- op[7:4]. -/
def mid (op : Word) : Nibble := op.extractLsb' 4 4

/-- op[11:4]. -/
def upper (op : Word) : BitVec 8 := op.extractLsb' 4 8

end Opcode

open Opcode

/-- Family 0x0: CLS, RET, else SYS (R58, R59). -/
def decodeFamily0 (m : SubDecode) (op : Word) : Instr :=
  if highNibbleOk m (mid op) 0xE#4 && low op == 0x0#4 then .cls (upper op)
  else if highNibbleOk m (mid op) 0xE#4 && low op == 0xE#4 then .ret (upper op)
  else .sys (nnn op)

/-- Family 0x8, by op[3:0] (R58, R60). -/
def decodeFamily8 (op : Word) : Except Reject Instr :=
  match low op with
  | 0x0#4 => .ok (.ldReg (x op) (y op))
  | 0x1#4 => .ok (.orReg (x op) (y op))
  | 0x2#4 => .ok (.andReg (x op) (y op))
  | 0x3#4 => .ok (.xorReg (x op) (y op))
  | 0x4#4 => .ok (.addReg (x op) (y op))
  | 0x5#4 => .ok (.sub (x op) (y op))
  | 0x6#4 => .ok (.shr (x op) (y op))
  | 0x7#4 => .ok (.subn (x op) (y op))
  | 0xE#4 => .ok (.shl (x op) (y op))
  | _ => .error (.unrecognised op)

/-- Family 0xE: SKP, SKNP (R58, R61). -/
def decodeFamilyE (m : SubDecode) (op : Word) : Except Reject Instr :=
  if highNibbleOk m (mid op) 0x9#4 && low op == 0xE#4 then .ok (.skp (x op) (mid op))
  else if highNibbleOk m (mid op) 0xA#4 && low op == 0x1#4 then .ok (.sknp (x op) (mid op))
  else .error (.unrecognised op)

/-- Family 0xF, by op[7:0] (R58, R62). -/
def decodeFamilyF (op : Word) : Except Reject Instr :=
  match kk op with
  | 0x07#8 => .ok (.ldVxDt (x op))
  | 0x0A#8 => .ok (.ldVxK (x op))
  | 0x15#8 => .ok (.ldDtVx (x op))
  | 0x18#8 => .ok (.ldStVx (x op))
  | 0x1E#8 => .ok (.addIVx (x op))
  | 0x29#8 => .ok (.ldFVx (x op))
  | 0x33#8 => .ok (.ldBVx (x op))
  | 0x55#8 => .ok (.ldMemVx (x op))
  | 0x65#8 => .ok (.ldVxMem (x op))
  | _ => .error (.unrecognised op)

/-- The instruction of a word, or its rejection as unrecognised: total on all 65536 words (R57, R58, R65). -/
def decode (m : SubDecode) (op : Word) : Except Reject Instr :=
  match family op with
  | 0x0#4 => .ok (decodeFamily0 m op)
  | 0x1#4 => .ok (.jp (nnn op))
  | 0x2#4 => .ok (.call (nnn op))
  | 0x3#4 => .ok (.seImm (x op) (kk op))
  | 0x4#4 => .ok (.sneImm (x op) (kk op))
  | 0x5#4 => .ok (.seReg (x op) (y op) (low op))
  | 0x6#4 => .ok (.ldImm (x op) (kk op))
  | 0x7#4 => .ok (.addImm (x op) (kk op))
  | 0x8#4 => decodeFamily8 op
  | 0x9#4 => .ok (.sneReg (x op) (y op) (low op))
  | 0xA#4 => .ok (.ldI (nnn op))
  | 0xB#4 => .ok (.jpV0 (nnn op))
  | 0xC#4 => .ok (.rnd (x op) (kk op))
  | 0xD#4 => .ok (.drw (x op) (y op) (n op))
  | 0xE#4 => decodeFamilyE m op
  | _ => decodeFamilyF op

/-- The opcode of two bytes in the order they stand in memory: the byte at the lower address supplies bits 15-8 (R40). -/
def wordOfBytes (first second : Byte) : Word := first ++ second

/-- The bytes of an opcode as they stand in memory, lower address first (R40). -/
def bytesOfWord (op : Word) : Byte × Byte := (op.extractLsb' 8 8, op.extractLsb' 0 8)

/-- Decoding a byte sequence: one instruction and the bytes after it (R53: every instruction is two bytes). -/
def decodeBytes (m : SubDecode) (bytes : List Byte) : Except Reject (Instr × List Byte) :=
  match bytes with
  | first :: second :: rest =>
    match decode m (wordOfBytes first second) with
    | .ok i => .ok (i, rest)
    | .error e => .error e
  | _ => .error .truncated

/-- The instruction the decoder reads from the row word `w` of spec/opcode_table.json, under the default parameters. -/
def decodeTableWord (nbits w : Nat) : Option Instr :=
  let bytes := bytesOfWord (BitVec.ofNat 16 (w % 2 ^ nbits))
  match decodeBytes Machine.defaultParams.subDecode [bytes.1, bytes.2] with
  | .ok (i, _) => some i
  | .error _ => none

/-- A register number as the four bits of its field (R54). -/
def Reg.bits (r : Reg) : Nibble := BitVec.ofFin r

/-- Format `A`: family, nnn (R54). -/
def encodeA (family : Nibble) (nnn : Addr12) : Word := family ++ nnn

/-- Format `XK`: family, x, kk (R54). -/
def encodeXK (family : Nibble) (x : Reg) (kk : Byte) : Word := (family ++ Reg.bits x : BitVec 8) ++ kk

/-- Formats `XY` and `XYN`: family, x, y, low nibble (R54). -/
def encodeXY (family : Nibble) (x y : Reg) (low : Nibble) : Word :=
  (family ++ Reg.bits x : BitVec 8) ++ (Reg.bits y ++ low : BitVec 8)

/-- The word of an instruction, from the encoding column of R66. -/
def encode (i : Instr) : Word :=
  match i with
  | .sys nnn => encodeA 0x0#4 nnn
  | .cls ign => encodeA 0x0#4 (ign ++ 0x0#4)
  | .ret ign => encodeA 0x0#4 (ign ++ 0xE#4)
  | .jp nnn => encodeA 0x1#4 nnn
  | .call nnn => encodeA 0x2#4 nnn
  | .seImm x kk => encodeXK 0x3#4 x kk
  | .sneImm x kk => encodeXK 0x4#4 x kk
  | .seReg x y ign => encodeXY 0x5#4 x y ign
  | .ldImm x kk => encodeXK 0x6#4 x kk
  | .addImm x kk => encodeXK 0x7#4 x kk
  | .ldReg x y => encodeXY 0x8#4 x y 0x0#4
  | .orReg x y => encodeXY 0x8#4 x y 0x1#4
  | .andReg x y => encodeXY 0x8#4 x y 0x2#4
  | .xorReg x y => encodeXY 0x8#4 x y 0x3#4
  | .addReg x y => encodeXY 0x8#4 x y 0x4#4
  | .sub x y => encodeXY 0x8#4 x y 0x5#4
  | .shr x y => encodeXY 0x8#4 x y 0x6#4
  | .subn x y => encodeXY 0x8#4 x y 0x7#4
  | .shl x y => encodeXY 0x8#4 x y 0xE#4
  | .sneReg x y ign => encodeXY 0x9#4 x y ign
  | .ldI nnn => encodeA 0xA#4 nnn
  | .jpV0 nnn => encodeA 0xB#4 nnn
  | .rnd x kk => encodeXK 0xC#4 x kk
  | .drw x y n => encodeXY 0xD#4 x y (BitVec.ofFin n)
  | .skp x ign => encodeXK 0xE#4 x (ign ++ 0xE#4)
  | .sknp x ign => encodeXK 0xE#4 x (ign ++ 0x1#4)
  | .ldVxDt x => encodeXK 0xF#4 x 0x07#8
  | .ldVxK x => encodeXK 0xF#4 x 0x0A#8
  | .ldDtVx x => encodeXK 0xF#4 x 0x15#8
  | .ldStVx x => encodeXK 0xF#4 x 0x18#8
  | .addIVx x => encodeXK 0xF#4 x 0x1E#8
  | .ldFVx x => encodeXK 0xF#4 x 0x29#8
  | .ldBVx x => encodeXK 0xF#4 x 0x33#8
  | .ldMemVx x => encodeXK 0xF#4 x 0x55#8
  | .ldVxMem x => encodeXK 0xF#4 x 0x65#8

end Sys2Proof
end

