-- ==== Sys2Proof/Machine/Cells.lean ====
section
/-! DEFINITION. The display as the flat row-major array `Disp[0..2047]` (10_state.md R26, R27). -/

namespace Sys2Proof.Machine

/-- `Disp[k]` is on: column k mod 64 of row k / 64 (R27). There is no cell beyond 2047. -/
def Cells.get (d : DisplayCells) (k : Nat) : Bool :=
  if h : k / 64 < 32 then d[k / 64].getLsbD (k % 64) else false

/-- XOR-toggle `Disp[k]` (R99). -/
def Cells.toggle (d : DisplayCells) (k : Nat) : DisplayCells :=
  if h : k / 64 < 32 then d.set (k / 64) (d[k / 64] ^^^ BitVec.twoPow 64 (k % 64)) else d

/-- Every cell off (R98). -/
def Cells.off : DisplayCells := Vector.replicate 32 0#64

end Sys2Proof.Machine
end

