-- ==== Sys2Proof/Machine/Memory.lean ====
section
/-! DEFINITION. Memory as plain data (20_memory.md R34, R45): the cells that differ from the reset contents, by rising
address. Addresses are natural numbers; the bounds check of R41 stands in Machine/Ops.lean. -/

namespace Sys2Proof.Machine

/-- The cells whose byte is not the one an unlisted address reads as, addresses strictly rising. -/
abbrev Memory := List Host.Cell

/-- What an unlisted address reads as: the reset contents under the default parameters (R129; log 5, 6). -/
def Memory.unlisted (a : Nat) : Byte := resetByte defaultParams a

/-- The byte at an address. -/
def Memory.read (m : Memory) (a : Nat) : Byte :=
  match m with
  | [] => Memory.unlisted a
  | c :: rest => if c.1 = a then c.2 else Memory.read rest a

/-- The cells at every other address. -/
def Memory.erase (m : Memory) (a : Nat) : Memory :=
  m.filter fun c => c.1 != a

/-- Put a cell before the first one at a higher address. -/
def Memory.insert (m : Memory) (a : Nat) (b : Byte) : Memory :=
  match m with
  | [] => [(a, b)]
  | c :: rest => if a < c.1 then (a, b) :: c :: rest else c :: Memory.insert rest a b

/-- Store one byte, keeping the canonical form: a byte equal to what the unlisted address reads as leaves no entry. -/
def Memory.write (m : Memory) (a : Nat) (b : Byte) : Memory :=
  if b = Memory.unlisted a then Memory.erase m a else Memory.insert (Memory.erase m a) a b

/-- Store bytes at rising addresses. -/
def Memory.writeList (m : Memory) (a : Nat) (bytes : List Byte) : Memory :=
  match bytes with
  | [] => m
  | b :: rest => Memory.writeList (Memory.write m a b) (a + 1) rest

/-- The memory with the byte `f a` at every address of R34's range. (Irreducible: its lemmas say what it reads as.) -/
@[irreducible] def Memory.ofBytes (f : Nat → Byte) : Memory :=
  ((List.range Config.memSize).filter fun a => f a != Memory.unlisted a).map fun a => (a, f a)

/-- The canonical form: inside the address space, strictly rising, no entry that an unlisted address would give. -/
def Memory.wf (m : Memory) : Bool :=
  match m with
  | [] => true
  | c :: rest =>
    decide (c.1 < Config.memSize) && c.2 != Memory.unlisted c.1
      && rest.all (fun d => decide (c.1 < d.1)) && Memory.wf rest

end Sys2Proof.Machine
end

