-- ==== Sys2Proof/Machine/State.lean ====
section
/-! DEFINITION. The machine's state (10_state.md R15), the reasons a step faults or is refused, and reset (R129). -/

namespace Sys2Proof.Machine

/-- The faults of 60_exceptions.md R112, each with its `Fault.info`. A step that raises one answers a NEXT state whose
record `State.fault` holds it (R114; log 9): no step answers `Outcome.fault`. -/
inductive Fault where
  /-- Code 1. Raised by the fetch of any step whose PC + 1 > 0xFFF (R42). Safe: everything but the record is free. -/
  | fetchBounds (pc : Word)
  /-- Code 2. Raised by DRW, LD B, LD [I],Vx and LD Vx,[I] at a data address above 0xFFF (R41). Safe, as above. -/
  | dataBounds (op : Word) (addr : Nat)
  /-- Code 3. Raised by CALL with SP ≥ 16 (R71). Safe, as above. -/
  | stackOverflow (op : Word) (sp : Byte)
  /-- Code 4. Raised by RET whose decremented SP is ≥ 16 (R69). Safe, as above. -/
  | stackUnderflow (op : Word) (sp : Byte)
  /-- Code 5. Raised by SKP and SKNP with Vx > 15 (R105, R106). Safe, as above. -/
  | keyIndex (op : Word) (vx : Byte)
  /-- Code 6. Raised by DRW when a set sprite bit addresses cell 2048 or more in spill mode (R101). Safe, as above. -/
  | displayBounds (op : Word) (cell : Nat)
  deriving DecidableEq, Repr

/-- Why a request is refused. -/
inductive Refusal where
  /-- An instruction without a meaning in this model, by its mnemonic. Raised by no arm of exec: all 35 are modelled. -/
  | notModelled (mnemonic : String)
  /-- Raised by `step` while the fault record is set: "The step request is refused while Fault.active holds" (R114).
  Safe: the spec's own refusal. -/
  | stepWhileFaulted (fault : Fault)
  /-- Raised by the host's load of more than 3584 bytes (R136, C4). Safe: the spec gives it no meaning. -/
  | loadTooLong (length : Nat)
  /-- Raised by the host's load after the first step (R136, D24). Safe: the spec gives it no meaning. -/
  | loadAfterStep
  /-- Raised by a second load before the first step (R137: "at most one load"; log 20). Safe: the spec gives it no meaning. -/
  | secondLoad
  deriving DecidableEq, Repr

/-- Where the boot order of R137 stands: reset, then at most one load, then steps. -/
inductive BootPhase where
  /-- Reset, and nothing since. -/
  | afterReset
  /-- The program is loaded and no step has been taken. -/
  | loaded
  /-- A step has been taken. -/
  | running
  deriving DecidableEq, Repr

/-- The state of the core (R15), the host's coming inputs and the model's own bookkeeping. -/
structure State where
  /-- V0-VF (R16). -/
  v : Vector Byte 16
  /-- The index register I (R19). -/
  i : Word
  /-- The program counter (R20). -/
  pc : Word
  /-- The return-address stack, no part of memory (R23). -/
  stack : Vector Word 16
  /-- The number of stack slots in use (R24). -/
  sp : Byte
  /-- The delay timer (R25). -/
  dt : Byte
  /-- The sound timer (R25). -/
  st : Byte
  /-- The display cells (R26, R27). -/
  disp : DisplayCells
  /-- Memory, 4096 bytes (R34), as the cells that differ from the reset contents. -/
  mem : Memory
  /-- The fault record: `none` is Fault.active = false (R33). -/
  fault : Option Fault
  /-- MODEL'S OWN. The levels the host has on the port `keys` in the coming steps, the next step's first; the last stay until
  the host changes them (R29, R123, R124; log 13). -/
  keyInputs : List KeyLevels
  /-- MODEL'S OWN. The bytes the host has on the port `rand` in the coming steps, the next step's first (R30, R123, R124;
  log 14). -/
  randBytes : List Byte
  /-- MODEL'S OWN. The number of steps so far, the index of the free values; reset does not rewind it (log 13, 14). -/
  freeIndex : Nat
  /-- MODEL'S OWN. How far the boot order has come since reset, for the load's conditions (R136, R137; log 15). -/
  boot : BootPhase
  /-- MODEL'S OWN. The parameters, constant (R31; log 19). -/
  params : Params
  deriving DecidableEq, Repr

/-- The state right after reset under the default parameters (R129). -/
def State.reset : State :=
  { v := Vector.replicate 16 0#8
    i := 0#16
    pc := defaultResetPc
    stack := Vector.replicate 16 0#16
    sp := 0#8
    dt := 0#8
    st := 0#8
    disp := defaultDisplay
    mem := []
    fault := none
    keyInputs := []
    randBytes := []
    freeIndex := 0
    boot := .afterReset
    params := defaultParams }

/-- A value for every piece of the spec's state but the fault record: what stands there after a fault (R114). -/
structure AfterFault where
  v : Vector Byte 16
  i : Word
  pc : Word
  stack : Vector Word 16
  sp : Byte
  dt : Byte
  st : Byte
  disp : DisplayCells
  /-- The byte at each address of R34. -/
  byteAt : Nat → Byte
  deriving Inhabited

end Sys2Proof.Machine

/-- FREE VALUE. The state other than the fault record after a fault, from the state the instruction met and the fault
(R114, U12, U19; log 9). -/
opaque Sys2Proof.Config.afterFault :
  Sys2Proof.Machine.State → Sys2Proof.Machine.Fault → Sys2Proof.Machine.AfterFault
end

