-- ==== Sys2Proof/Machine/Ops.lean ====
section
/-! DEFINITION. The named operations over registers, memory, stack, inputs and the fault record: every read and write of
a meaning goes through them. -/

namespace Sys2Proof.Machine

/-- The outcome of a meaning, a step or a host operation. -/
abbrev Result := Host.Outcome State Fault Refusal

/-- The key levels of the steps after the next one: the last levels the host has set hold (R123, R124; log 13). -/
def nextKeys (levels : List KeyLevels) : List KeyLevels :=
  match levels with
  | [] => []
  | [k] => [k]
  | _ :: k :: rest => k :: rest

namespace State

/-- `V[x]` (R11). No register is hardwired or banked (R16). -/
def reg (s : State) (x : Reg) : Byte := s.v[x.val]

/-- `V[x] <- b` (R11). -/
def setReg (s : State) (x : Reg) (b : Byte) : State := { s with v := s.v.set x.val b }

/-- VF, the flag register (R17). -/
abbrev flagReg : Reg := 15

/-- `V[0xF] <- b`, the flag write, which a meaning makes after its result write (R17). -/
def setFlag (s : State) (b : Byte) : State := s.setReg flagReg b

/-- `I <- w`. -/
def setI (s : State) (w : Word) : State := { s with i := w }

/-- `PC <- w`. -/
def setPc (s : State) (w : Word) : State := { s with pc := w }

/-- `PC <- trunc_16(PC + 2)`: the fetch's advance (R56) and the skip of R77. -/
def advancePc (s : State) : State := s.setPc (s.pc + 2#16)

/-- `PC <- trunc_16(PC - 2)`: the rollback of R108. -/
def rollbackPc (s : State) : State := s.setPc (s.pc - 2#16)

/-- `DT <- b`. -/
def setDt (s : State) (b : Byte) : State := { s with dt := b }

/-- `ST <- b`. -/
def setSt (s : State) (b : Byte) : State := { s with st := b }

/-- The display after a clear or a blit (R28). -/
def setDisp (s : State) (d : DisplayCells) : State := { s with disp := d }

/-- `Disp[k]` is on (R11, R26). -/
def cell (s : State) (k : Nat) : Bool := Cells.get s.disp k

/-- The byte at an address, with no bounds check: what the host and the statements look at. -/
def byteAt (s : State) (a : Nat) : Byte := s.mem.read a

/-- Memory after a store or a load. -/
def setMem (s : State) (m : Memory) : State := { s with mem := m }

/-- `MemRead(a, 1)` by the instruction with opcode `op` (R11, R41). -/
def memRead (s : State) (op : Word) (a : Nat) : Except Fault Byte :=
  if a ≤ 0xFFF then .ok (s.byteAt a) else .error (.dataBounds op a)

/-- `MemWrite(a, 1, b)` by the instruction with opcode `op` (R11, R41). -/
def memWrite (s : State) (op : Word) (a : Nat) (b : Byte) : Except Fault State :=
  if a ≤ 0xFFF then .ok (s.setMem (s.mem.write a b)) else .error (.dataBounds op a)

/-- Write bytes at rising addresses, one access each, stopping at the first out of bounds (R43, R116). -/
def memWriteList (s : State) (op : Word) (a : Nat) (bytes : List Byte) : Except Fault State :=
  match bytes with
  | [] => .ok s
  | b :: rest =>
    match s.memWrite op a b with
    | .ok t => t.memWriteList op (a + 1) rest
    | .error f => .error f

/-- Read `count` bytes at rising addresses, one access each, stopping at the first out of bounds (R43, R116). -/
def memReadList (s : State) (op : Word) (a count : Nat) : Except Fault (List Byte) :=
  match count with
  | 0 => .ok []
  | k + 1 =>
    match s.memRead op a with
    | .error f => .error f
    | .ok b =>
      match s.memReadList op (a + 1) k with
      | .ok bytes => .ok (b :: bytes)
      | .error f => .error f

/-- Load registers from `x` upwards with the bytes of a list, as many as there are registers. -/
def setRegsFrom (s : State) (x : Nat) (bytes : List Byte) : State :=
  match bytes with
  | [] => s
  | b :: rest =>
    if h : x < 16 then (s.setReg ⟨x, h⟩ b).setRegsFrom (x + 1) rest else s

/-- Push: `Stack[SP] <- w; SP <- trunc_8(SP + 1)`, or STACK_OVERFLOW where there is no such slot (R24, R71). -/
def push (s : State) (op : Word) (w : Word) : Except Fault State :=
  if h : s.sp.toNat < 16 then
    .ok { s with stack := s.stack.set s.sp.toNat w, sp := s.sp + 1#8 }
  else .error (.stackOverflow op s.sp)

/-- Pop: `SP <- trunc_8(SP - 1)` and the value of `Stack[SP]`, or STACK_UNDERFLOW where there is no such slot. The slot
keeps its value (R24, R69). -/
def pop (s : State) (op : Word) : Except Fault (Word × State) :=
  let sp := s.sp - 1#8
  if h : sp.toNat < 16 then .ok (s.stack[sp.toNat], { s with sp := sp })
  else .error (.stackUnderflow op sp)

/-- The key levels this step samples: the host's on the port, else a free value (R29, log 13). -/
def keys (s : State) : KeyLevels :=
  match s.keyInputs with
  | k :: _ => k
  | [] => Config.freeKeys s.freeIndex

/-- `Keys[k] = down` (R11, R29). -/
def keyDown (s : State) (k : Nat) : Bool := s.keys.getLsbD k

/-- The byte `Rand()` returns in this step: the host's on the port, else a free value (R30, R123; log 14). -/
def randByte (s : State) : Byte :=
  match s.randBytes with
  | b :: _ => b
  | [] => Config.freeRand s.freeIndex

/-- The timer tick: each timer that is nonzero is decremented (R119). -/
def tick (s : State) : State :=
  (s.setDt (if s.dt = 0#8 then 0#8 else s.dt - 1#8)).setSt (if s.st = 0#8 then 0#8 else s.st - 1#8)

/-- The model's own bookkeeping at the end of every step: the ports turn to the next step's values, key levels holding and
the byte being this step's alone, and the step is counted (log 13, 14, 15). -/
def countStep (s : State) : State :=
  { s with
    keyInputs := nextKeys s.keyInputs
    randBytes := s.randBytes.tail
    freeIndex := s.freeIndex + 1
    boot := .running }

/-- TAKING A FAULT (R114): the record holds the fault, and every other piece of the spec's state is unspecified, hence a
free value (log 9). There is no handler, vector, saved PC or mode change, and no return (R115). -/
def raise (s : State) (f : Fault) : State :=
  let free := Config.afterFault s f
  { s with
    v := free.v
    i := free.i
    pc := free.pc
    stack := free.stack
    sp := free.sp
    dt := free.dt
    st := free.st
    disp := free.disp
    mem := Memory.ofBytes free.byteAt
    fault := some f }

end State

/-- The outcome of an instruction whose pseudocode ran to its end or raised a fault (R114). -/
def settle (s : State) (r : Except Fault State) : Result :=
  match r with
  | .ok t => .next t
  | .error f => .next (s.raise f)

end Sys2Proof.Machine
end

