-- ==== Sys2Proof/Machine/Operands.lean ====
section
/-! DEFINITION. The operand forms: how a field or a register becomes an address, a word or a key index (30_encoding.md
R55, 20_memory.md R38, 42_index_memory.md R97). Registers and immediates are read as they stand. -/

namespace Sys2Proof.Machine

/-- `zext_16(nnn)` (R55). -/
def addrOperand (nnn : Addr12) : Word := nnn.zeroExtend 16

/-- `zext_16(V[x])`, a register as a word (R76, R92). -/
def State.regWord (s : State) (x : Reg) : Word := (s.reg x).zeroExtend 16

/-- `trunc_16(zext_16(nnn) + zext_16(V[0]))`: the target of JP V0, whatever op[11:8] holds (R76). -/
def State.jumpV0Target (s : State) (nnn : Addr12) : Word := addrOperand nnn + s.regWord 0

/-- I plus an offset, an unbounded sum: the one data addressing mode (R38, R97). -/
def State.dataAddr (s : State) (offset : Nat) : Nat := s.i.toNat + offset

/-- `0x050 + 5 * V[x]`: the address LD F leaves in I (R93). -/
def State.glyphAddr (s : State) (x : Reg) : Word :=
  BitVec.ofNat 16 (Config.fontBase + 5 * (s.reg x).toNat)

/-- Hundreds, tens and ones of a byte (R94). -/
def bcdDigits (a : Byte) : List Byte :=
  [BitVec.ofNat 8 (a.toNat / 100), BitVec.ofNat 8 (a.toNat / 10 % 10), BitVec.ofNat 8 (a.toNat % 10)]

/-- V0 to Vx in order, inclusive: what LD [I],Vx stores (R95). -/
def State.regsUpTo (s : State) (x : Reg) : List Byte := s.v.toList.take (x.val + 1)

/-- `V[x]` as a key index, or KEY_INDEX above 15 (R105, R106). -/
def State.keyOperand (s : State) (op : Word) (x : Reg) : Except Fault Nat :=
  if (s.reg x).toNat ≤ 15 then .ok (s.reg x).toNat else .error (.keyIndex op (s.reg x))

/-- The least key that is down, if any: "key 0 checked first, then 1, …, 15" (R108). -/
def State.lowestKeyDown (s : State) : Option Nat := (List.range 16).find? s.keyDown

/-- The origin column `V[x] mod 64` (R99, R100). -/
def State.originColumn (s : State) (x : Reg) : Nat := (s.reg x).toNat % 64

/-- The origin row `V[y] mod 32` (R99, R100). -/
def State.originRow (s : State) (y : Reg) : Nat := (s.reg y).toNat % 32

end Sys2Proof.Machine
end

