-- ==== Sys2Proof/Machine/Alu.lean ====
section
/-! DEFINITION. Register loads and the ALU: 41_alu.md R78-R90. Operands are read before any write, and the flag write
comes last, so that with x = 0xF the flag replaces the result (10_state.md R17). -/

namespace Sys2Proof.Machine

/-- LD Vx, kk (R78). -/
def execLdImm (x : Reg) (kk : Byte) (s : State) : Result := .next (s.setReg x kk)

/-- ADD Vx, kk: no flag (R79). -/
def execAddImm (x : Reg) (kk : Byte) (s : State) : Result := .next (s.setReg x (s.reg x + kk))

/-- LD Vx, Vy (R80). -/
def execLdReg (x y : Reg) (s : State) : Result := .next (s.setReg x (s.reg y))

/-- OR Vx, Vy (R81). -/
def execOrReg (x y : Reg) (s : State) : Result := .next (s.setReg x (s.reg x ||| s.reg y))

/-- AND Vx, Vy (R82). -/
def execAndReg (x y : Reg) (s : State) : Result := .next (s.setReg x (s.reg x &&& s.reg y))

/-- XOR Vx, Vy (R83). -/
def execXorReg (x y : Reg) (s : State) : Result := .next (s.setReg x (s.reg x ^^^ s.reg y))

/-- The result into Vx, then the flag into VF (R17). -/
def State.setRegFlag (s : State) (x : Reg) (result flag : Byte) : State := (s.setReg x result).setFlag flag

/-- ADD Vx, Vy (R84). -/
def execAddReg (x y : Reg) (s : State) : Result :=
  .next (s.setRegFlag x (s.reg x + s.reg y) (carryFlag (s.reg x) (s.reg y)))

/-- SUB Vx, Vy (R85). -/
def execSub (x y : Reg) (s : State) : Result :=
  .next (s.setRegFlag x (s.reg x - s.reg y) (notBorrowFlag (s.reg x) (s.reg y)))

/-- SHR Vx: Vy is not read (R86). -/
def execShr (x _y : Reg) (s : State) : Result :=
  .next (s.setRegFlag x (s.reg x >>> 1) (shiftRightFlag (s.reg x)))

/-- SUBN Vx, Vy (R87). -/
def execSubn (x y : Reg) (s : State) : Result :=
  .next (s.setRegFlag x (s.reg y - s.reg x) (notBorrowFlag (s.reg y) (s.reg x)))

/-- SHL Vx: Vy is not read (R88). -/
def execShl (x _y : Reg) (s : State) : Result :=
  .next (s.setRegFlag x (s.reg x <<< 1) (shiftLeftFlag s.params.shiftFlag (s.reg x)))

/-- RND Vx, kk: the byte is read once, and is this step's alone (R89, R123). -/
def execRnd (x : Reg) (kk : Byte) (s : State) : Result :=
  .next (s.setReg x (s.randByte &&& kk))

end Sys2Proof.Machine
end

