-- ==== Sys2Proof/Machine/ControlFlow.lean ====
section
/-! DEFINITION. Control flow: 40_control_flow.md R68-R77. A meaning runs after the fetch, so `s.pc` is the instruction's
address plus 2 (R20, log 21); the tick follows it in Machine/Cycle.lean. -/

namespace Sys2Proof.Machine

/-- A skip adds 2 to the already-advanced PC when its condition holds (R77). -/
def State.skipIf (s : State) (condition : Bool) : State := if condition then s.advancePc else s

/-- SYS nnn, a no-op (R68). -/
def execSys (_nnn : Addr12) (s : State) : Result := .next s

/-- RET (R69). -/
def execRet (ign : BitVec 8) (s : State) : Result :=
  settle s <|
    match s.pop (encode (.ret ign)) with
    | .ok (w, t) => .ok (t.setPc w)
    | .error f => .error f

/-- JP nnn (R70). -/
def execJp (nnn : Addr12) (s : State) : Result := .next (s.setPc (addrOperand nnn))

/-- CALL nnn (R71). -/
def execCall (nnn : Addr12) (s : State) : Result :=
  settle s <|
    match s.push (encode (.call nnn)) s.pc with
    | .ok t => .ok (t.setPc (addrOperand nnn))
    | .error f => .error f

/-- SE Vx, kk (R72). -/
def execSeImm (x : Reg) (kk : Byte) (s : State) : Result := .next (s.skipIf (s.reg x == kk))

/-- SNE Vx, kk (R73). -/
def execSneImm (x : Reg) (kk : Byte) (s : State) : Result := .next (s.skipIf (s.reg x != kk))

/-- SE Vx, Vy (R74); op[3:0] is ignored (R63). -/
def execSeReg (x y : Reg) (_ign : Nibble) (s : State) : Result := .next (s.skipIf (s.reg x == s.reg y))

/-- SNE Vx, Vy (R75); op[3:0] is ignored (R63). -/
def execSneReg (x y : Reg) (_ign : Nibble) (s : State) : Result := .next (s.skipIf (s.reg x != s.reg y))

/-- JP V0, nnn (R76). -/
def execJpV0 (nnn : Addr12) (s : State) : Result := .next (s.setPc (s.jumpV0Target nnn))

end Sys2Proof.Machine
end

