-- ==== Sys2Proof/Machine/Display.lean ====
section
/-! DEFINITION. The display: 43_display.md R98-R104, with the three settings of SPRITE_EDGE_MODE (R101, R102). -/

namespace Sys2Proof.Machine

/-- CLS (R98). -/
def execCls (_ign : BitVec 8) (s : State) : Result := .next (s.setDisp Cells.off)

/-- What a blit has done so far: the cells, and whether a set bit met a cell that was on. -/
structure Blit where
  disp : DisplayCells
  collided : Bool
  deriving DecidableEq, Repr

/-- XOR-toggle one cell, noting a collision (R99). -/
def Blit.toggle (b : Blit) (k : Nat) : Blit :=
  { disp := Cells.toggle b.disp k, collided := b.collided || Cells.get b.disp k }

/-- The cell of sprite row `r`, column `c`, for an origin already wrapped; `none` where `clip` skips the pixel
(R101, R102). -/
def cellIndex (mode : EdgeMode) (ox oy r c : Nat) : Option Nat :=
  match mode with
  | .spill => some ((oy + r) * 64 + (ox + c))
  | .clip => if ox + c < 64 ∧ oy + r < 32 then some ((oy + r) * 64 + (ox + c)) else none
  | .wrap => some ((oy + r) % 32 * 64 + (ox + c) % 64)

/-- Bit `7 - c` of a sprite row: its column `c`, most significant bit first (R99). -/
def spriteBit (row : Byte) (c : Nat) : Bool := row.getLsbD (7 - c)

/-- One set pixel: toggled, skipped, or DISPLAY_BOUNDS beyond the last cell (R99, R101). -/
def Blit.pixel (b : Blit) (op : Word) (mode : EdgeMode) (ox oy r c : Nat) : Except Fault Blit :=
  match cellIndex mode ox oy r c with
  | none => .ok b
  | some k => if k < Config.displayCells then .ok (b.toggle k) else .error (.displayBounds op k)

/-- The pixels of one row at the columns of a list, in order; a clear bit addresses no cell (R99). -/
def Blit.row (b : Blit) (op : Word) (mode : EdgeMode) (ox oy r : Nat) (bits : Byte) (columns : List Nat) :
    Except Fault Blit :=
  match columns with
  | [] => .ok b
  | c :: rest =>
    if spriteBit bits c then
      match b.pixel op mode ox oy r c with
      | .ok b' => b'.row op mode ox oy r bits rest
      | .error f => .error f
    else b.row op mode ox oy r bits rest

/-- The rows of a list, in order: each row's byte is read, then its pixels are drawn (R99, R116). -/
def Blit.rows (b : Blit) (s : State) (op : Word) (ox oy : Nat) (rows : List Nat) : Except Fault Blit :=
  match rows with
  | [] => .ok b
  | r :: rest =>
    match s.memRead op (s.dataAddr r) with
    | .error f => .error f
    | .ok bits =>
      match b.row op s.params.edgeMode ox oy r bits (List.range 8) with
      | .error f => .error f
      | .ok b' => b'.rows s op ox oy rest

/-- DRW Vx, Vy, n (R99). The coordinates are read before VF is reset (R103); VF ends as the collision flag. -/
def execDrw (x y : Reg) (n : Fin 16) (s : State) : Result :=
  settle s <|
    match Blit.rows { disp := s.disp, collided := false } s (encode (.drw x y n)) (s.originColumn x) (s.originRow y)
        (List.range n.val) with
    | .ok b => .ok ((s.setDisp b.disp).setFlag (flagByte b.collided))
    | .error f => .error f

end Sys2Proof.Machine
end

