-- ==== Sys2Proof/Machine/IndexMemory.lean ====
section
/-! DEFINITION. The index register and memory: 42_index_memory.md R91-R97. I is changed by LD I, ADD I and LD F only. -/

namespace Sys2Proof.Machine

/-- LD I, nnn (R91). -/
def execLdI (nnn : Addr12) (s : State) : Result := .next (s.setI (addrOperand nnn))

/-- ADD I, Vx: modulo 2^16, VF not written (R92). -/
def execAddIVx (x : Reg) (s : State) : Result := .next (s.setI (s.i + s.regWord x))

/-- LD F, Vx: Vx is not masked to a digit (R93). -/
def execLdFVx (x : Reg) (s : State) : Result := .next (s.setI (s.glyphAddr x))

/-- LD B, Vx: three bytes from I on (R94). -/
def execLdBVx (x : Reg) (s : State) : Result :=
  settle s (s.memWriteList (encode (.ldBVx x)) (s.dataAddr 0) (bcdDigits (s.reg x)))

/-- LD [I], Vx: V0..Vx from I on (R95). -/
def execLdMemVx (x : Reg) (s : State) : Result :=
  settle s (s.memWriteList (encode (.ldMemVx x)) (s.dataAddr 0) (s.regsUpTo x))

/-- LD Vx, [I]: V0..Vx from I on (R96). -/
def execLdVxMem (x : Reg) (s : State) : Result :=
  settle s <|
    match s.memReadList (encode (.ldVxMem x)) (s.dataAddr 0) (x.val + 1) with
    | .ok bytes => .ok (s.setRegsFrom 0 bytes)
    | .error f => .error f

end Sys2Proof.Machine
end

