-- ==== Sys2Proof/Machine/KeyTimer.lean ====
section
/-! DEFINITION. Key input and the timers: 44_timers_input.md R105-R110. -/

namespace Sys2Proof.Machine

/-- SKP Vx: skip if the key is down (R105). -/
def execSkp (x : Reg) (ign : Nibble) (s : State) : Result :=
  settle s <|
    match s.keyOperand (encode (.skp x ign)) x with
    | .ok k => .ok (s.skipIf (s.keyDown k))
    | .error f => .error f

/-- SKNP Vx: skip if the key is up (R106). -/
def execSknp (x : Reg) (ign : Nibble) (s : State) : Result :=
  settle s <|
    match s.keyOperand (encode (.sknp x ign)) x with
    | .ok k => .ok (s.skipIf (!s.keyDown k))
    | .error f => .error f

/-- LD Vx, DT (R107). -/
def execLdVxDt (x : Reg) (s : State) : Result := .next (s.setReg x s.dt)

/-- The least key down goes to Vx, else PC rolls back to this instruction (R108). -/
def State.awaitKey (s : State) (x : Reg) : State :=
  match s.lowestKeyDown with
  | some k => s.setReg x (BitVec.ofNat 8 k)
  | none => s.rollbackPc

/-- LD Vx, K (R108). -/
def execLdVxK (x : Reg) (s : State) : Result := .next (s.awaitKey x)

/-- LD DT, Vx (R109). -/
def execLdDtVx (x : Reg) (s : State) : Result := .next (s.setDt (s.reg x))

/-- LD ST, Vx (R110). -/
def execLdStVx (x : Reg) (s : State) : Result := .next (s.setSt (s.reg x))

end Sys2Proof.Machine
end

