-- ==== Sys2Proof/Machine/Cycle.lean ====
section
/-! DEFINITION. The step transaction: fetch, decode, dispatch, tick (30_encoding.md R56). -/

namespace Sys2Proof.Machine

/-- The opcode at PC, big-endian, or FETCH_BOUNDS when PC + 1 > 0xFFF (R40, R42). -/
def State.fetch (s : State) : Except Fault Word :=
  if s.pc.toNat + 1 ≤ 0xFFF then .ok (wordOfBytes (s.byteAt s.pc.toNat) (s.byteAt (s.pc.toNat + 1)))
  else .error (.fetchBounds s.pc)

/-- An unrecognised opcode does nothing (R64). The optional logging hook has no architectural effect (R126; log 28). -/
def execUnrecognised (s : State) : Result := .next s

/-- Decode and execute an opcode, PC already advanced. -/
def execOpcode (op : Word) (s : State) : Result :=
  match decode s.params.subDecode op with
  | .ok i => exec i s
  | .error _ => execUnrecognised s

/-- The end of a step: the tick, unless the step raised a fault (R114, R119), and the model's own bookkeeping. -/
def State.endStep (s : State) : State :=
  match s.fault with
  | none => s.tick.countStep
  | some _ => s.countStep

/-- A step that has run its instruction to a next state ends; any other outcome stands. -/
def closeStep (r : Result) : Result :=
  match r with
  | .next t => .next t.endStep
  | .fault f => .fault f
  | .refused e => .refused e

/-- One step (R56). While a fault is recorded the request is refused (R114). -/
def cycle (s : State) : Result :=
  match s.fault with
  | some f => .refused (.stepWhileFaulted f)
  | none =>
    match s.fetch with
    | .error f => closeStep (.next (s.raise f))
    | .ok op => closeStep (execOpcode op s.advancePc)

/-- The opcode `w` stored in the two bytes the next step fetches, where PC admits a fetch. -/
def State.placeOpcode (s : State) (w : Word) : State :=
  if s.pc.toNat + 1 ≤ 0xFFF then
    s.setMem ((s.mem.write s.pc.toNat (bytesOfWord w).1).write (s.pc.toNat + 1) (bytesOfWord w).2)
  else s

end Sys2Proof.Machine
end

