-- ==== Sys2Proof/Machine/Step.lean ====
section
/-! DEFINITION. The step of the machine and the placement of an instruction where it fetches. -/

namespace Sys2Proof.Machine

/-- One step transaction (30_encoding.md R56). -/
def step (s : State) : Host.Outcome State Fault Refusal := cycle s

/-- `s` with the row word `w` of spec/opcode_table.json stored where the next step fetches: it stands for the host's
program load (R136; log 16). -/
def State.withFetchWord (s : State) (nbits w : Nat) : State := s.placeOpcode (BitVec.ofNat 16 (w % 2 ^ nbits))

end Sys2Proof.Machine
end

