-- ==== Sys2Proof/Machine/HostInterface.lean ====
section
/-! DEFINITION. The core's side of the host interface (60_exceptions.md R123, R124): reset, program load, inputs and output
ports. All of it acts between steps (R47). -/

namespace Sys2Proof.Machine

/-- The state right after reset under any parameters (R129). -/
def State.resetWith (p : Params) : State :=
  { State.reset with
    pc := p.resetPc
    disp := p.displayInit
    mem := Memory.ofBytes (resetByte p)
    params := p }

/-- The `reset` port on a running machine: every piece of the core's state takes its reset value whatever it was (R128),
and this is the only way to clear a fault (R134). The parameters stay (R31), and so do the host's own inputs, which have
no reset value in the core (R135; log 26). -/
def hostReset (s : State) : Result :=
  .next { State.resetWith s.params with
    keyInputs := s.keyInputs, randBytes := s.randBytes, freeIndex := s.freeIndex }

/-- `load(image)`: the image is copied verbatim from 0x200 on; refused beyond 3584 bytes, after the first step (R136) and
where a program is loaded already (R137). -/
def hostLoad (image : List Byte) (s : State) : Result :=
  if Config.progMax < image.length then .refused (.loadTooLong image.length)
  else
    match s.boot with
    | .running => .refused .loadAfterStep
    | .loaded => .refused .secondLoad
    | .afterReset => .next { s.setMem (s.mem.writeList Config.progBase image) with boot := .loaded }

/-- The host changes the port `keys`: the coming step samples these levels, and so does every later one until the host
changes them again (R123, R124; log 13). -/
def hostKeys (levels : KeyLevels) (s : State) : Result := .next { s with keyInputs := [levels] }

/-- The host changes the port `rand`: `Rand()` returns this byte in the coming step, in place of any byte set for it before
(R123, R124; log 14). -/
def hostRand (b : Byte) (s : State) : Result := .next { s with randBytes := b :: s.randBytes.tail }

/-- What the host can do to the machine (R123). -/
inductive HostRequest where
  | reset
  | load (image : List Byte)
  | keys (levels : KeyLevels)
  | rand (b : Byte)
  | step
  deriving DecidableEq, Repr

/-- The effect of a request. -/
def serve (q : HostRequest) (s : State) : Result :=
  match q with
  | .reset => hostReset s
  | .load image => hostLoad image s
  | .keys levels => hostKeys levels s
  | .rand b => hostRand b s
  | .step => step s

/-- A sequence of requests, stopping at the first that is not answered by a next state. -/
def serveAll (qs : List HostRequest) (s : State) : Result :=
  match qs with
  | [] => .next s
  | q :: rest =>
    match serve q s with
    | .next t => serveAll rest t
    | .fault f => .fault f
    | .refused e => .refused e

/-- The code of a fault (R112). -/
def Fault.code (f : Fault) : BitVec 3 :=
  match f with
  | .fetchBounds _ => 1#3
  | .dataBounds _ _ => 2#3
  | .stackOverflow _ _ => 3#3
  | .stackUnderflow _ _ => 4#3
  | .keyIndex _ _ => 5#3
  | .displayBounds _ _ => 6#3

/-- The info of a fault: the opcode in the upper half and the address or index in the lower, PC alone for FETCH_BOUNDS
(R112, R123; log 12). -/
def Fault.info (f : Fault) : BitVec 32 :=
  match f with
  | .fetchBounds pc => pc.zeroExtend 32
  | .dataBounds op addr => op ++ BitVec.ofNat 16 addr
  | .stackOverflow op sp => op ++ sp.zeroExtend 16
  | .stackUnderflow op sp => op ++ sp.zeroExtend 16
  | .keyIndex op vx => op ++ vx.zeroExtend 16
  | .displayBounds op cell => op ++ BitVec.ofNat 16 cell

namespace State

/-- Port `disp[2047:0]`: the flat sequence of 2048 cells, `Disp[0]` first (R26, R123). -/
def portDisp (s : State) : List Bool := (List.range Config.displayCells).map s.cell

/-- Port `dt[7:0]` (R123). -/
def portDt (s : State) : Byte := s.dt

/-- Port `st[7:0]` (R123). -/
def portSt (s : State) : Byte := s.st

/-- Port `fault` (R123). -/
def portFault (s : State) : Bool := s.fault.isSome

/-- Port `fault_code[2:0]`; a free value while no fault is recorded (R123, R129; log 11). -/
def portFaultCode (s : State) : BitVec 3 :=
  match s.fault with
  | some f => f.code
  | none => Config.idleFaultCode s.freeIndex

/-- Port `fault_info`; a free value while no fault is recorded (R123, R129; log 11). -/
def portFaultInfo (s : State) : BitVec 32 :=
  match s.fault with
  | some f => f.info
  | none => Config.idleFaultInfo s.freeIndex

end State

end Sys2Proof.Machine
end

