-- ==== Sys2Proof/Safety.lean ====
section
/-! DEFINITION. What counts as a safe run, and the invariant every step keeps. -/

namespace Sys2Proof

open Machine

/-- No fault is recorded: a faulted state is a failure that no claim may count as a successful end (R114). -/
def Safe (s : State) : Prop := s.fault = none

/-- `n` steps from `s`, all of them answered and none of them faulting, end in `t`. -/
def SafeRun (n : Nat) (s t : State) : Prop := Host.Core.run core n s = Host.Outcome.next t ∧ Safe t

/-- The program has reached its end: PC holds the address of a jump to itself and no fault is recorded (R138, D32). -/
def ReachedEnd (s : State) : Prop :=
  Safe s ∧ s.pc.toNat + 1 ≤ 0xFFF ∧
    decode s.params.subDecode (wordOfBytes (s.byteAt s.pc.toNat) (s.byteAt (s.pc.toNat + 1)))
      = .ok (.jp (s.pc.truncate 12))

/-- The invariant of the machine: memory keeps its canonical form, and unless a fault is recorded SP counts at most the
16 slots (R24), every slot holds a return address a fetch could have pushed, and PC is where R22 says it can get. -/
structure Inv (s : State) : Prop where
  /-- The cells are in canonical form. -/
  memory : s.mem.wf = true
  /-- SP counts slots in use (R24). -/
  stackPointer : Safe s → s.sp.toNat ≤ 16
  /-- A pushed PC is at most 0x1000 (R22, R71). -/
  returnAddresses : Safe s → ∀ j : Fin 16, (s.stack[j.val]).toNat ≤ 0x1000
  /-- PC is at most 0x10FE, so that no sum wraps at 16 bits (R22). -/
  programCounter : Safe s → s.pc.toNat ≤ 0x10FE

end Sys2Proof
end

