-- ==== Sys2Proof/Certificates/Slice0/Obligations.lean ====
section
/-! DEFINITION. The statements for the provers. `exec` is stated on the state after the fetch, where PC is the instruction's
address plus 2 (R20); `step` statements say the whole transaction. `log <n>` is notes/assumptions/<n>.md, D<n> is
spec/92_eei_decisions.md, G<n> and U<n> are spec/93_implementation_defined.md. -/

namespace Sys2Proof.Claims

open Machine

/-- What an instruction may change: its frame is everything else. -/
structure Touch where
  /-- General registers, VF among them. -/
  regs : List Reg := []
  index : Bool := false
  pc : Bool := false
  /-- Stack slots. -/
  slots : List Nat := []
  sp : Bool := false
  dt : Bool := false
  st : Bool := false
  display : Bool := false
  /-- The first byte of memory stored to, and how many. -/
  memFrom : Nat := 0
  memBytes : Nat := 0
  /-- The boot order's position (R137). -/
  boot : Bool := false

/-- Everything `may` does not name is in `t` as it is in `s`: every register, every stack slot, every display cell, every byte
of memory, the fault record, the host's inputs and the model's own fields. -/
structure Frame (may : Touch) (s t : State) : Prop where
  regs : ∀ y, y ∉ may.regs → t.reg y = s.reg y
  index : may.index = false → t.i = s.i
  pc : may.pc = false → t.pc = s.pc
  slots : ∀ j : Fin 16, j.val ∉ may.slots → t.stack[j.val] = s.stack[j.val]
  sp : may.sp = false → t.sp = s.sp
  dt : may.dt = false → t.dt = s.dt
  st : may.st = false → t.st = s.st
  display : may.display = false → ∀ k, t.cell k = s.cell k
  bytes : ∀ a, ¬ (may.memFrom ≤ a ∧ a < may.memFrom + may.memBytes) → t.byteAt a = s.byteAt a
  fault : t.fault = s.fault
  randBytes : t.randBytes = s.randBytes
  keyInputs : t.keyInputs = s.keyInputs
  freeIndex : t.freeIndex = s.freeIndex
  boot : may.boot = false → t.boot = s.boot
  params : t.params = s.params

/-- The two bytes at PC as an opcode, the lower address in bits 15-8 (R40). -/
def opcodeAt (s : State) : Word := s.byteAt s.pc.toNat ++ s.byteAt (s.pc.toNat + 1)

/-- The step can fetch: no fault is recorded and both bytes are inside memory (R42, R56). -/
def CanFetch (s : State) : Prop := s.fault = none ∧ s.pc.toNat + 1 ≤ 0xFFF

/-- The next step runs `i`. -/
def Fetches (s : State) (i : Instr) : Prop := CanFetch s ∧ decode s.params.subDecode (opcodeAt s) = .ok i

/-- The next step meets an unrecognised opcode. -/
def FetchesUnrecognised (s : State) : Prop := CanFetch s ∧ ∃ e, decode s.params.subDecode (opcodeAt s) = .error e

/-- The meaning of `i` ran to its end without a fault, to `t`. -/
def Runs (i : Instr) (s t : State) : Prop := exec i s = .next t ∧ t.fault = none

/-- The step ran to its end without a fault, to `t`. -/
def Steps (s t : State) : Prop := step s = .next t ∧ t.fault = none

/-- The model's own fields at the end of a step: the ports turn to the next step's values, levels holding and the byte being one
step's alone, the step is counted and the boot order has come to the steps (log 13, 14, 15). -/
def turned (s : State) : State :=
  { s with
    keyInputs := nextKeys s.keyInputs
    randBytes := s.randBytes.tail
    freeIndex := s.freeIndex + 1
    boot := .running }

/-- What R129 asks of a state after reset, under its parameters. -/
structure AfterReset (s : State) : Prop where
  regs : ∀ x, s.reg x = 0#8
  index : s.i = 0#16
  pc : s.pc = s.params.resetPc
  sp : s.sp = 0#8
  stack : ∀ j : Fin 16, s.stack[j.val] = 0#16
  dt : s.dt = 0#8
  st : s.st = 0#8
  display : s.disp = s.params.displayInit
  fault : s.fault = none
  /-- The glyph of digit d stands at 0x050 + 5 d (R131). -/
  font : ∀ (d : Fin 16) (k : Fin 5), s.byteAt (0x050 + 5 * d.val + k.val) = s.params.font[d.val][k.val]
  rest : ∀ a < 4096, a < 0x050 ∨ 0x0A0 ≤ a → s.byteAt a = memInitByte s.params.memInit a
  boot : s.boot = .afterReset

/-- R131's table, from 0x050 on. -/
def fontTable : List Byte :=
  [0xF0, 0x90, 0x90, 0x90, 0xF0,  0x20, 0x60, 0x20, 0x20, 0x70,  0xF0, 0x10, 0xF0, 0x80, 0xF0,  0xF0, 0x10, 0xF0, 0x10, 0xF0] ++
  [0x90, 0x90, 0xF0, 0x10, 0x10,  0xF0, 0x80, 0xF0, 0x10, 0xF0,  0xF0, 0x80, 0xF0, 0x90, 0xF0,  0xF0, 0x10, 0x20, 0x40, 0x40] ++
  [0xF0, 0x90, 0xF0, 0x90, 0xF0,  0xF0, 0x90, 0xF0, 0x10, 0xF0,  0xF0, 0x90, 0xF0, 0x90, 0x90,  0xE0, 0x90, 0xE0, 0x90, 0xE0] ++
  [0xF0, 0x80, 0x80, 0x80, 0xF0,  0xE0, 0x90, 0x90, 0x90, 0xE0,  0xF0, 0x80, 0xF0, 0x80, 0xF0,  0xF0, 0x80, 0xF0, 0x80, 0x80]

/-- A word for each of the 35 rows of the opcode table, written out from R58 and R66, in the table's order: families 0 to 7, family 8,
families 9 to E, family F. -/
def sampleWords : List (Word × Instr) :=
  [(0x0123, .sys 0x123), (0x00E0, .cls 0x0E), (0x00EE, .ret 0x0E), (0x1234, .jp 0x234),
   (0x2F01, .call 0xF01), (0x3A42, .seImm 10 0x42), (0x4B81, .sneImm 11 0x81), (0x5121, .seReg 1 2 1),
   (0x6A5C, .ldImm 10 0x5C), (0x7C01, .addImm 12 0x01)] ++
  [(0x8120, .ldReg 1 2), (0x8231, .orReg 2 3), (0x8342, .andReg 3 4), (0x8453, .xorReg 4 5),
   (0x8AB4, .addReg 10 11), (0x8125, .sub 1 2), (0x8DE6, .shr 13 14), (0x8217, .subn 2 1),
   (0x8CDE, .shl 12 13)] ++
  [(0x912F, .sneReg 1 2 0xF), (0xA2F0, .ldI 0x2F0), (0xB300, .jpV0 0x300), (0xC50F, .rnd 5 0x0F),
   (0xD12F, .drw 1 2 15), (0xE39E, .skp 3 9), (0xE4A1, .sknp 4 10)] ++
  [(0xF307, .ldVxDt 3), (0xF50A, .ldVxK 5), (0xF615, .ldDtVx 6), (0xF718, .ldStVx 7),
   (0xF81E, .addIVx 8), (0xF929, .ldFVx 9), (0xF433, .ldBVx 4), (0xFB55, .ldMemVx 11),
   (0xFE65, .ldVxMem 14)]

/-- R16's first table, and R18's for VF: the registers an instruction writes. -/
def writtenRegs (i : Instr) : List Reg :=
  match i with
  | .ldImm x _ => [x]
  | .addImm x _ => [x]
  | .ldReg x _ => [x]
  | .orReg x _ => [x]
  | .andReg x _ => [x]
  | .xorReg x _ => [x]
  | .addReg x _ => [x, 15]
  | .sub x _ => [x, 15]
  | .shr x _ => [x, 15]
  | .subn x _ => [x, 15]
  | .shl x _ => [x, 15]
  | .rnd x _ => [x]
  | .ldVxDt x => [x]
  | .ldVxK x => [x]
  | .ldVxMem x => (List.finRange 16).filter (· ≤ x)
  | .drw _ _ _ => [15]
  | _ => []

/-- R16's second table: the registers an instruction reads. -/
def readRegs (i : Instr) : List Reg :=
  match i with
  | .seImm x _ => [x]
  | .sneImm x _ => [x]
  | .addImm x _ => [x]
  | .skp x _ => [x]
  | .sknp x _ => [x]
  | .ldDtVx x => [x]
  | .ldStVx x => [x]
  | .addIVx x => [x]
  | .ldFVx x => [x]
  | .ldBVx x => [x]
  | .seReg x y _ => [x, y]
  | .sneReg x y _ => [x, y]
  | .ldReg _ y => [y]
  | .orReg x y => [x, y]
  | .andReg x y => [x, y]
  | .xorReg x y => [x, y]
  | .addReg x y => [x, y]
  | .sub x y => [x, y]
  | .shr x _ => [x]
  | .subn x y => [x, y]
  | .shl x _ => [x]
  | .drw x y _ => [x, y]
  | .jpV0 _ => [0]
  | .ldMemVx x => (List.finRange 16).filter (· ≤ x)
  | _ => []

/-- R21's table: PC at the end of the step of an instruction at `s.pc`. -/
def pcAfter (s : State) (i : Instr) : Word :=
  let a := s.pc
  match i with
  | .jp nnn => nnn.zeroExtend 16
  | .call nnn => nnn.zeroExtend 16
  | .ret _ => s.stack.toList.getD (s.sp - 1#8).toNat 0#16
  | .jpV0 nnn => nnn.zeroExtend 16 + (s.reg 0).zeroExtend 16
  | .seImm x kk => if s.reg x = kk then a + 4#16 else a + 2#16
  | .sneImm x kk => if s.reg x ≠ kk then a + 4#16 else a + 2#16
  | .seReg x y _ => if s.reg x = s.reg y then a + 4#16 else a + 2#16
  | .sneReg x y _ => if s.reg x ≠ s.reg y then a + 4#16 else a + 2#16
  | .skp x _ => if s.keys.getLsbD (s.reg x).toNat = true then a + 4#16 else a + 2#16
  | .sknp x _ => if s.keys.getLsbD (s.reg x).toNat = false then a + 4#16 else a + 2#16
  | .ldVxK _ => if s.keys = 0#16 then a else a + 2#16
  | _ => a + 2#16

/-- Pixel (r, c) of the sprite at I is set: bit 7 - c of the byte at I + r (R99). -/
def PixelSet (s : State) (r c : Nat) : Prop := (s.byteAt (s.i.toNat + r)).getLsbD (7 - c) = true

/-- The cell of pixel (r, c) for the origin in Vx and Vy, under the setting of SPRITE_EDGE_MODE (R100, R101, R102); a
clipped pixel has none. -/
def PixelCell (s : State) (x y : Reg) (r c k : Nat) : Prop :=
  let column := (s.reg x).toNat % 64 + c
  let row := (s.reg y).toNat % 32 + r
  match s.params.edgeMode with
  | .spill => k = row * 64 + column
  | .clip => column < 64 ∧ row < 32 ∧ k = row * 64 + column
  | .wrap => k = row % 32 * 64 + column % 64

/-- A set pixel of the `n` rows addresses cell `k`. -/
def Covers (s : State) (x y : Reg) (n k : Nat) : Prop :=
  ∃ r c, r < n ∧ c < 8 ∧ PixelSet s r c ∧ PixelCell s x y r c k

/-- The first `n` rows can be read and their set pixels stay on the grid. -/
def RowsFit (s : State) (x y : Reg) (n : Nat) : Prop :=
  (∀ r < n, s.i.toNat + r ≤ 0xFFF) ∧ ∀ k, Covers s x y n k → k < 2048

end Sys2Proof.Claims

open Sys2Proof Sys2Proof.Machine Sys2Proof.Claims

/-! ## Reset and the host interface -/

/-- R128, R129 and R131 with the spec's defaults. RESET_PC, DISPLAY_INIT and FONT are the spec's own decisions (D15, D17, D18;
the font bytes G3, log 6); the zero bytes outside the font are the model's choice of MEM_INIT (log 5). -/
def Obligations.ResetZeroesRegistersAndPlacesFont : Prop :=
  let s := State.reset
  (∀ x, s.reg x = 0#8) ∧ s.i = 0#16 ∧ s.pc = 0x200#16 ∧ s.sp = 0#8 ∧ (∀ j : Fin 16, s.stack[j.val] = 0#16) ∧
  s.dt = 0#8 ∧ s.st = 0#8 ∧ (∀ k, s.cell k = false) ∧ s.fault = none ∧
  (List.range 80).map (fun k => s.byteAt (0x050 + k)) = fontTable ∧
  ∀ a, a < 0x050 ∨ 0x0A0 ≤ a → s.byteAt a = 0x00#8

/-- R128, R129, R134: from every state, whatever it held, the reset port answers a state with every value of R129 under the
machine's parameters (D15-D18), which stay (R31), and the host's inputs as they were (R135; log 26). A machine built with the
parameters p starts in such a state, and State.reset is the one of the defaults. -/
def Obligations.ResetUnderEveryParameter : Prop :=
  (∀ s : State, ∃ t, serve .reset s = .next t ∧ AfterReset t ∧ t.params = s.params ∧
    t.keyInputs = s.keyInputs ∧ t.randBytes = s.randBytes ∧ t.freeIndex = s.freeIndex) ∧
  (∀ p : Params, AfterReset (State.resetWith p) ∧ (State.resetWith p).params = p) ∧
  State.resetWith defaultParams = State.reset

/-- R115, R134 (D10, D13): a recorded fault outlives every host request but reset, and reset clears it. -/
def Obligations.OnlyResetClearsAFault : Prop :=
  (∀ s : State, ∃ t, serve .reset s = .next t ∧ t.fault = none) ∧
  ∀ (q : HostRequest) (s t : State) (f : Fault),
    s.fault = some f → q ≠ .reset → serve q s = .next t → t.fault = some f

/-- R136, R137 (D24, C4): the load copies the image and nothing else, keeps the machine's invariant, happens at most once after
reset and before the first step, and is refused when too long, too late, or the second. -/
def Obligations.LoadCopiesTheImageOrIsRefused : Prop :=
  (∀ (image : List Byte) (s : State), image.length ≤ 3584 → s.boot = .afterReset →
    ∃ t, hostLoad image s = .next t ∧
      (∀ (k : Nat) (h : k < image.length), t.byteAt (0x200 + k) = image[k]) ∧
      t.boot = .loaded ∧ (Inv s → Inv t) ∧
      Frame { memFrom := 0x200, memBytes := image.length, boot := true } s t) ∧
  (∀ (image : List Byte) (s : State), 3584 < image.length → hostLoad image s = .refused (.loadTooLong image.length)) ∧
  (∀ (image : List Byte) (s : State), image.length ≤ 3584 → s.boot = .running → hostLoad image s = .refused .loadAfterStep) ∧
  ∀ (image : List Byte) (s : State), image.length ≤ 3584 → s.boot = .loaded → hostLoad image s = .refused .secondLoad

/-- R112's codes and infos on the ports of R123 (D11). The places of opcode and value in `fault_info` are the model's reading
(log 12). -/
def Obligations.FaultPortsShowCodeAndInfo : Prop :=
  ∀ s : State,
    (s.fault = none → s.portFault = false) ∧
    (∀ f, s.fault = some f → s.portFault = true) ∧
    (∀ pc, s.fault = some (.fetchBounds pc) → s.portFaultCode.toNat = 1 ∧ s.portFaultInfo.toNat = pc.toNat) ∧
    (∀ op a, s.fault = some (.dataBounds op a) →
      s.portFaultCode.toNat = 2 ∧ s.portFaultInfo.toNat = op.toNat * 2 ^ 16 + a % 2 ^ 16) ∧
    (∀ op sp, s.fault = some (.stackOverflow op sp) →
      s.portFaultCode.toNat = 3 ∧ s.portFaultInfo.toNat = op.toNat * 2 ^ 16 + sp.toNat) ∧
    (∀ op sp, s.fault = some (.stackUnderflow op sp) →
      s.portFaultCode.toNat = 4 ∧ s.portFaultInfo.toNat = op.toNat * 2 ^ 16 + sp.toNat) ∧
    (∀ op vx, s.fault = some (.keyIndex op vx) →
      s.portFaultCode.toNat = 5 ∧ s.portFaultInfo.toNat = op.toNat * 2 ^ 16 + vx.toNat) ∧
    ∀ op k, s.fault = some (.displayBounds op k) →
      s.portFaultCode.toNat = 6 ∧ s.portFaultInfo.toNat = op.toNat * 2 ^ 16 + k % 2 ^ 16

/-! ## Encoding -/

/-- The decoder gives back every well-formed instruction from its word, and from its two bytes as they stand in memory, under
both settings of SUBDECODE_0E (R54, R57-R63). Opcode values: D3, G1 (log 1). -/
def Obligations.DecodeOfEncodeIsTheInstruction : Prop :=
  ∀ (m : SubDecode) (i : Instr), i.wf m = true →
    decode m (encode i) = .ok i ∧
    ∀ rest, decodeBytes m ((bytesOfWord (encode i)).1 :: (bytesOfWord (encode i)).2 :: rest) = .ok (i, rest)

/-- The other direction: a decoded instruction is well-formed and its word is the one it was decoded from, so no bit is
lost (R54; log 1, 18). -/
def Obligations.EncodeOfDecodeIsTheWord : Prop :=
  ∀ (m : SubDecode) (op : Word) (i : Instr), decode m op = .ok i → encode i = op ∧ i.wf m = true

/-- R64's list under the default setting: these words are unrecognised and every other word is an instruction (R60, R61, R62;
opcode values D3, G1). -/
def Obligations.UnrecognisedWordsAreExactlyTheListed : Prop :=
  ∀ op : Word,
    let family := op.toNat / 4096
    let kk := op.toNat % 256
    let low := op.toNat % 16
    let listed := (family = 8 ∧ (8 ≤ low ∧ low ≤ 0xD ∨ low = 0xF)) ∨
      (family = 0xE ∧ kk ≠ 0x9E ∧ kk ≠ 0xA1) ∨
      (family = 0xF ∧ kk ∉ [0x07, 0x0A, 0x15, 0x18, 0x1E, 0x29, 0x33, 0x55, 0x65])
    (listed → decode .lowByte op = .error (.unrecognised op)) ∧ (¬ listed → ∃ i, decode .lowByte op = .ok i)

/-- Each of the 35 written-out words is, under the default setting, the instruction of its row with the operands of its fields (opcode
values D3, G1; log 1). -/
def Obligations.SampleWordsDecode : Prop :=
  sampleWords.length = 35 ∧ ∀ p ∈ sampleWords, decode .lowByte p.1 = .ok p.2

/-- R59, R61 (D4): both settings agree on 00E0, 00EE, Ex9E and ExA1, and differ on the word 0x0000. -/
def Obligations.SubDecodeSettingsAgreeOnStandardWords : Prop :=
  (∀ m, decode m 0x00E0 = .ok (.cls 0x0E) ∧ decode m 0x00EE = .ok (.ret 0x0E) ∧
    (∀ x : Reg, decode m (0xE09E + 256#16 * BitVec.ofNat 16 x.val) = .ok (.skp x 9)) ∧
    ∀ x : Reg, decode m (0xE0A1 + 256#16 * BitVec.ofNat 16 x.val) = .ok (.sknp x 10)) ∧
  decode .lowByte 0x0000 = .ok (.sys 0) ∧ decode .lowNibble 0x0000 = .ok (.cls 0)

/-! ## The step -/

/-- R56: the step runs the decoded instruction on the state whose PC is advanced by 2; then the timers tick, unless the instruction
raised a fault (R114, R119). The ports and the model's own fields turn at the end of every step (log 13, 14, 15). -/
def Obligations.StepRunsTheDecodedInstruction : Prop :=
  ∀ (s : State) (i : Instr), Fetches s i →
    ∃ t, exec i { s with pc := s.pc + 2#16 } = .next t ∧
      (t.fault = none →
        step s = .next (turned { t with
          dt := if t.dt = 0#8 then 0#8 else t.dt - 1#8
          st := if t.st = 0#8 then 0#8 else t.st - 1#8 })) ∧
      (t.fault ≠ none → step s = .next (turned t))

/-- R64: an unrecognised opcode moves PC by 2 and lets the timers tick, and does nothing else. -/
def Obligations.UnrecognisedOpcodeOnlyTicks : Prop :=
  ∀ s : State, FetchesUnrecognised s →
    ∃ t, step s = .next t ∧ t.pc = s.pc + 2#16 ∧ t.dt.toNat = s.dt.toNat - 1 ∧ t.st.toNat = s.st.toNat - 1 ∧
      t = turned { s with pc := t.pc, dt := t.dt, st := t.st }

/-- R42, R114 (D10, D11): a fetch whose second byte lies outside memory takes FETCH_BOUNDS with PC as its info. -/
def Obligations.FetchPastTheEndFaults : Prop :=
  ∀ s : State, s.fault = none → 0xFFF < s.pc.toNat + 1 → ∃ t, step s = .next t ∧ t.fault = some (.fetchBounds s.pc)

/-- R114 (D10): "The step request is refused while Fault.active holds". -/
def Obligations.FaultedMachineRefusesSteps : Prop :=
  ∀ (s : State) (f : Fault), s.fault = some f → step s = .refused (.stepWhileFaulted f)

/-- R119: the tick after the instruction, in every step that does not fault and in none that does, for recognised and
unrecognised opcodes alike; the timers tick independently, never pass 0, and the tick has no side effect (the ports and the
model's own fields turn as after every step: log 13, 14, 15). -/
def Obligations.TickFollowsEveryStepThatDoesNotFault : Prop :=
  (∀ (s : State) (i : Instr) (u : State), Fetches s i → exec i { s with pc := s.pc + 2#16 } = .next u →
    ∃ t, step s = .next t ∧
      (u.fault = none → t.dt.toNat = u.dt.toNat - 1 ∧ t.st.toNat = u.st.toNat - 1) ∧
      (u.fault ≠ none → t.dt = u.dt ∧ t.st = u.st) ∧
      t = turned { u with dt := t.dt, st := t.st }) ∧
  ∀ s : State, FetchesUnrecognised s →
    ∃ t, step s = .next t ∧ t.dt.toNat = s.dt.toNat - 1 ∧ t.st.toNat = s.st.toNat - 1

/-- R21: PC at the end of a step that does not fault. -/
def Obligations.PcAfterStepFollowsTheTable : Prop :=
  (∀ (s t : State) (i : Instr), Fetches s i → Steps s t → t.pc = pcAfter s i) ∧
  ∀ s t : State, FetchesUnrecognised s → Steps s t → t.pc = s.pc + 2#16

/-! ## Whole-machine rules -/

/-- R16's two tables: an instruction that does not fault changes no register outside its row of the first, and a register outside
both of its rows has no influence on it: changing that register beforehand changes that register afterwards and nothing
else. -/
def Obligations.RegistersFollowTheReadAndWriteTables : Prop :=
  (∀ (i : Instr) (s t : State), Runs i s t → ∀ y, y ∉ writtenRegs i → t.reg y = s.reg y) ∧
  ∀ (i : Instr) (s t : State) (y : Reg) (b : Byte), Runs i s t → y ∉ writtenRegs i → y ∉ readRegs i →
    exec i (s.setReg y b) = .next (t.setReg y b)

/-- R28: only the clear and the blit write the display; no host action but reset and step does, and the host reads the 2048 cells
(R26). -/
def Obligations.DisplayIsWrittenOnlyByClearAndBlit : Prop :=
  (∀ (i : Instr) (s t : State), Runs i s t → (∀ ign, i ≠ .cls ign) → (∀ x y n, i ≠ .drw x y n) →
    ∀ k, t.cell k = s.cell k) ∧
  (∀ (q : HostRequest) (s t : State), q ≠ .reset → q ≠ .step → serve q s = .next t →
    ∀ k, t.cell k = s.cell k) ∧
  ∀ (s : State) (k : Nat), k < 2048 → s.portDisp[k]? = some (s.cell k)

/-- R15's "written by" column and R35, for an instruction that does not fault (the tick aside): memory, I, the stack, SP and the
timers are written by the instructions listed and by no other. -/
def Obligations.StateIsWrittenOnlyByTheListedInstructions : Prop :=
  ∀ (i : Instr) (s t : State), Runs i s t →
    ((∀ x, i ≠ .ldBVx x) → (∀ x, i ≠ .ldMemVx x) → ∀ a, t.byteAt a = s.byteAt a) ∧
    ((∀ nnn, i ≠ .ldI nnn) → (∀ x, i ≠ .addIVx x) → (∀ x, i ≠ .ldFVx x) → t.i = s.i) ∧
    ((∀ nnn, i ≠ .call nnn) → t.stack = s.stack) ∧
    ((∀ nnn, i ≠ .call nnn) → (∀ ign, i ≠ .ret ign) → t.sp = s.sp) ∧
    ((∀ x, i ≠ .ldDtVx x) → t.dt = s.dt) ∧
    ((∀ x, i ≠ .ldStVx x) → t.st = s.st) ∧
    t.params = s.params ∧ t.keyInputs = s.keyInputs

/-- R112, R113 (D7-D11): every fault comes from an instruction R112 lists for it, from its cause, with its info. -/
def Obligations.EveryFaultHasItsListedCause : Prop :=
  ∀ (i : Instr) (s t : State) (f : Fault), s.fault = none → exec i s = .next t → t.fault = some f →
    match f with
    | .fetchBounds _ => False
    | .dataBounds op a => op = encode i ∧ 0xFFF < a ∧
        ((∃ x y n, i = .drw x y n) ∨ (∃ x, i = .ldBVx x) ∨ (∃ x, i = .ldMemVx x) ∨ ∃ x, i = .ldVxMem x)
    | .stackOverflow op sp => op = encode i ∧ sp = s.sp ∧ 16 ≤ sp.toNat ∧ ∃ nnn, i = .call nnn
    | .stackUnderflow op sp => op = encode i ∧ sp = s.sp - 1#8 ∧ 16 ≤ sp.toNat ∧ ∃ ign, i = .ret ign
    | .keyIndex op vx => op = encode i ∧ 15 < vx.toNat ∧
        ((∃ x ign, i = .skp x ign ∧ vx = s.reg x) ∨ ∃ x ign, i = .sknp x ign ∧ vx = s.reg x)
    | .displayBounds op k => op = encode i ∧ 2048 ≤ k ∧ s.params.edgeMode = .spill ∧ ∃ x y n, i = .drw x y n

/-- Every step keeps the invariant: memory in canonical form and, unless a fault is recorded, SP at most 16 (R24), return addresses at
most 0x1000 and PC at most 0x10FE (R22). -/
def Obligations.StepKeepsTheInvariant : Prop := ∀ s t : State, Inv s → step s = .next t → Inv t

/-- The invariant holds after reset, under all parameters whose RESET_PC is in range, and after the reset port of any machine that
has such parameters, whatever its state (R128, R129, R130). -/
def Obligations.ResetMeetsTheInvariant : Prop :=
  Inv State.reset ∧ (∀ p : Params, p.resetPc.toNat ≤ 0x10FE → Inv (State.resetWith p)) ∧
  ∀ s t : State, s.params.resetPc.toNat ≤ 0x10FE → serve .reset s = .next t → Inv t

/-- R31: no step and no host request changes the parameters; and every answered step is counted (log 13, 15). -/
def Obligations.StepKeepsTheBuildParameters : Prop :=
  (∀ (q : HostRequest) (s t : State), serve q s = .next t → t.params = s.params) ∧
  ∀ s t : State, step s = .next t → t.params = s.params ∧ t.freeIndex = s.freeIndex + 1 ∧ t.boot = .running

/-- R138 (D32): from a program's end, a jump to itself, the step changes only the timers (and the model's own fields), and the program is
still at its end. -/
def Obligations.EndOfProgramOnlyTicks : Prop :=
  ∀ s : State, ReachedEnd s →
    ∃ t, step s = .next t ∧ ReachedEnd t ∧
      t = turned { s with dt := t.dt, st := t.st }

/-- R50, R140 item 6 (D26): a store over the instruction that follows is what the next step fetches. -/
def Obligations.StoreOverTheNextInstructionIsFetched : Prop :=
  ∀ (s : State) (x : Reg), Fetches s (.ldMemVx x) → 1 ≤ x.val → s.i = s.pc + 2#16 → s.i.toNat + x.val ≤ 0xFFF →
    ∃ t, step s = .next t ∧ t.fault = none ∧ t.pc = s.pc + 2#16 ∧ opcodeAt t = s.reg 0 ++ s.reg 1

/-! ## Register loads and the ALU -/

/-- R78. -/
def Obligations.LoadImmediateWritesTheByte : Prop :=
  ∀ (x : Reg) (kk : Byte) (s : State),
    ∃ t, exec (.ldImm x kk) s = .next t ∧ t.reg x = kk ∧ Frame { regs := [x] } s t

/-- R79: 8-bit wraparound, VF not touched unless it is Vx. -/
def Obligations.AddImmediateWrapsWithoutFlag : Prop :=
  ∀ (x : Reg) (kk : Byte) (s : State),
    ∃ t, exec (.addImm x kk) s = .next t ∧ (t.reg x).toNat = ((s.reg x).toNat + kk.toNat) % 256 ∧
      Frame { regs := [x] } s t

/-- R80, R81, R82, R83: copy and the bitwise operations, bit by bit, no flag. -/
def Obligations.CopyAndBitwiseOperations : Prop :=
  ∀ (x y : Reg) (s : State),
    (∃ t, exec (.ldReg x y) s = .next t ∧ t.reg x = s.reg y ∧ Frame { regs := [x] } s t) ∧
    (∃ t, exec (.orReg x y) s = .next t ∧
      (∀ j, (t.reg x).getLsbD j = ((s.reg x).getLsbD j || (s.reg y).getLsbD j)) ∧ Frame { regs := [x] } s t) ∧
    (∃ t, exec (.andReg x y) s = .next t ∧
      (∀ j, (t.reg x).getLsbD j = ((s.reg x).getLsbD j && (s.reg y).getLsbD j)) ∧ Frame { regs := [x] } s t) ∧
    ∃ t, exec (.xorReg x y) s = .next t ∧
      (∀ j, (t.reg x).getLsbD j = ((s.reg x).getLsbD j ^^ (s.reg y).getLsbD j)) ∧ Frame { regs := [x] } s t

/-- R84, with the order of R17: Vx gets the low byte of the sum, then VF the carry, so VF ends as the carry when x = 0xF. -/
def Obligations.AddRegistersSetsCarryLast : Prop :=
  ∀ (x y : Reg) (s : State),
    ∃ t, exec (.addReg x y) s = .next t ∧
      (x ≠ 15 → (t.reg x).toNat = ((s.reg x).toNat + (s.reg y).toNat) % 256) ∧
      t.reg 15 = (if 255 < (s.reg x).toNat + (s.reg y).toNat then 1#8 else 0#8) ∧
      Frame { regs := [x, 15] } s t

/-- R85, R87, with the order of R17: the difference modulo 256, then the strict not-borrow flag. -/
def Obligations.SubtractsSetStrictNotBorrowLast : Prop :=
  ∀ (x y : Reg) (s : State),
    (∃ t, exec (.sub x y) s = .next t ∧
      (x ≠ 15 → (t.reg x).toNat = ((s.reg x).toNat + 256 - (s.reg y).toNat) % 256) ∧
      t.reg 15 = (if (s.reg y).toNat < (s.reg x).toNat then 1#8 else 0#8) ∧ Frame { regs := [x, 15] } s t) ∧
    ∃ t, exec (.subn x y) s = .next t ∧
      (x ≠ 15 → (t.reg x).toNat = ((s.reg y).toNat + 256 - (s.reg x).toNat) % 256) ∧
      t.reg 15 = (if (s.reg x).toNat < (s.reg y).toNat then 1#8 else 0#8) ∧ Frame { regs := [x, 15] } s t

/-- R86: the logical shift of Vx, Vy not read, then VF the old bit 0, under either setting of SHIFT_FLAG. -/
def Obligations.ShiftRightSetsOldBitZero : Prop :=
  ∀ (x y : Reg) (s : State),
    ∃ t, exec (.shr x y) s = .next t ∧
      (x ≠ 15 → (t.reg x).toNat = (s.reg x).toNat / 2) ∧
      (t.reg 15).toNat = (s.reg x).toNat % 2 ∧
      Frame { regs := [x, 15] } s t

/-- R88 (SHIFT_FLAG: D6): the shift of Vx, Vy not read, then VF the old bit 7 as 0 or 1, or in place under `raw`. -/
def Obligations.ShiftLeftSetsOldBitSeven : Prop :=
  ∀ (x y : Reg) (s : State),
    ∃ t, exec (.shl x y) s = .next t ∧
      (x ≠ 15 → (t.reg x).toNat = (s.reg x).toNat * 2 % 256) ∧
      (s.params.shiftFlag = .bit → (t.reg 15).toNat = (s.reg x).toNat / 128) ∧
      (s.params.shiftFlag = .raw → (t.reg 15).toNat = (s.reg x).toNat / 128 * 128) ∧
      Frame { regs := [x, 15] } s t

/-- R89, R30 (D20): the byte `Rand()` returns in this step, AND kk; it is the host's on the port where there is one (log 14), and with
kk = 0 the result is 0 whatever it is. The step uses the byte up (StepRunsTheDecodedInstruction). -/
def Obligations.RandomAndConsumesOneByte : Prop :=
  ∀ (x : Reg) (kk : Byte) (s : State),
    ∃ t, exec (.rnd x kk) s = .next t ∧
      (∀ j, (t.reg x).getLsbD j = (s.randByte.getLsbD j && kk.getLsbD j)) ∧
      (∀ b rest, s.randBytes = b :: rest → s.randByte = b) ∧
      (kk = 0#8 → t.reg x = 0#8) ∧
      (Fetches s (.rnd x kk) →
        ∃ u, step s = .next u ∧ (∀ j, (u.reg x).getLsbD j = (s.randByte.getLsbD j && kk.getLsbD j)) ∧
          u.randBytes = s.randBytes.tail) ∧
      Frame { regs := [x] } s t

/-! ## The index register and memory -/

/-- R91. -/
def Obligations.LoadIndexSetsTheAddress : Prop :=
  ∀ (nnn : Addr12) (s : State),
    ∃ t, exec (.ldI nnn) s = .next t ∧ t.i.toNat = nnn.toNat ∧ Frame { index := true } s t

/-- R92 (D21, D23): modulo 2^16, not masked to 12 bits, VF not written. -/
def Obligations.AddToIndexWrapsAtSixteenBits : Prop :=
  ∀ (x : Reg) (s : State),
    ∃ t, exec (.addIVx x) s = .next t ∧ t.i.toNat = (s.i.toNat + (s.reg x).toNat) % 65536 ∧ Frame { index := true } s t

/-- R93: Vx is not masked to a digit. -/
def Obligations.FontAddressIsFivePerDigit : Prop :=
  ∀ (x : Reg) (s : State),
    ∃ t, exec (.ldFVx x) s = .next t ∧ t.i.toNat = 0x050 + 5 * (s.reg x).toNat ∧ Frame { index := true } s t

/-- R94: hundreds, tens and ones at I, I + 1 and I + 2, and no other byte. -/
def Obligations.StoreBcdWritesThreeDigits : Prop :=
  ∀ (x : Reg) (s : State), s.i.toNat + 2 ≤ 0xFFF →
    ∃ t, exec (.ldBVx x) s = .next t ∧
      (t.byteAt s.i.toNat).toNat = (s.reg x).toNat / 100 ∧
      (t.byteAt (s.i.toNat + 1)).toNat = (s.reg x).toNat / 10 % 10 ∧
      (t.byteAt (s.i.toNat + 2)).toNat = (s.reg x).toNat % 10 ∧
      Frame { memFrom := s.dataAddr 0, memBytes := 3 } s t

/-- R95 (I unchanged: D22): V0..Vx at I and up, inclusive, and no other byte. -/
def Obligations.StoreRegistersWritesUpToVx : Prop :=
  ∀ (x : Reg) (s : State), s.i.toNat + x.val ≤ 0xFFF →
    ∃ t, exec (.ldMemVx x) s = .next t ∧
      (∀ y : Reg, y ≤ x → t.byteAt (s.i.toNat + y.val) = s.reg y) ∧
      Frame { memFrom := s.dataAddr 0, memBytes := x.val + 1 } s t

/-- R96 (I unchanged: D22): V0..Vx from I and up, inclusive. -/
def Obligations.LoadRegistersReadsUpToVx : Prop :=
  ∀ (x : Reg) (s : State), s.i.toNat + x.val ≤ 0xFFF →
    ∃ t, exec (.ldVxMem x) s = .next t ∧
      (∀ y : Reg, y ≤ x → t.reg y = s.byteAt (s.i.toNat + y.val)) ∧
      Frame { regs := (List.finRange 16).filter (· ≤ x) } s t

/-- R41, R94, R95, R96, R116 (D10-D12): a block that passes 0xFFF takes DATA_BOUNDS at its lowest address out of bounds. -/
def Obligations.BlockAccessPastTheEndFaults : Prop :=
  ∀ (x : Reg) (s : State),
    (0xFFF < s.i.toNat + 2 →
      ∃ t, exec (.ldBVx x) s = .next t ∧ t.fault = some (.dataBounds (encode (.ldBVx x)) (max s.i.toNat 0x1000))) ∧
    (0xFFF < s.i.toNat + x.val →
      ∃ t, exec (.ldMemVx x) s = .next t ∧ t.fault = some (.dataBounds (encode (.ldMemVx x)) (max s.i.toNat 0x1000))) ∧
    (0xFFF < s.i.toNat + x.val →
      ∃ t, exec (.ldVxMem x) s = .next t ∧ t.fault = some (.dataBounds (encode (.ldVxMem x)) (max s.i.toNat 0x1000)))

/-- R45, R95, R96: what LD [I],Vx stored, LD Vx,[I] gives back, in any later state with the same bytes there and the same I. -/
def Obligations.LoadAfterStoreGivesTheRegistersBack : Prop :=
  ∀ (x : Reg) (s t u w : State), Runs (.ldMemVx x) s t → u.i = s.i →
    (∀ a, s.i.toNat ≤ a → a ≤ s.i.toNat + x.val → u.byteAt a = t.byteAt a) → Runs (.ldVxMem x) u w →
    ∀ y : Reg, (y ≤ x → w.reg y = s.reg y) ∧ (x < y → w.reg y = u.reg y)

/-! ## The display -/

/-- R98: whatever the display held. -/
def Obligations.ClearTurnsEveryCellOff : Prop :=
  ∀ (ign : BitVec 8) (s : State),
    ∃ t, exec (.cls ign) s = .next t ∧ (∀ k, t.cell k = false) ∧ Frame { display := true } s t

/-- R99, R100, R103 with the edge settings of R101, R102 (D9, D30): each covered cell is toggled once, every other cell stays, and VF is 1
exactly when a covered cell was on. -/
def Obligations.DrawTogglesExactlyTheCoveredCells : Prop :=
  ∀ (x y : Reg) (n : Fin 16) (s : State), RowsFit s x y n.val →
    ∃ t, exec (.drw x y n) s = .next t ∧
      (∀ k, Covers s x y n.val k → t.cell k = !s.cell k) ∧
      (∀ k, ¬ Covers s x y n.val k → t.cell k = s.cell k) ∧
      ((∃ k, Covers s x y n.val k ∧ s.cell k = true) → t.reg 15 = 1#8) ∧
      ((∀ k, Covers s x y n.val k → s.cell k = false) → t.reg 15 = 0#8) ∧
      Frame { regs := [15], display := true } s t

/-- R99, R101, R116 (D9-D12): the first row that cannot be read faults with DATA_BOUNDS, the first set pixel off the grid with
DISPLAY_BOUNDS, whichever comes first in drawing order. -/
def Obligations.DrawFaultsInDrawingOrder : Prop :=
  ∀ (x y : Reg) (n : Fin 16) (s : State) (r : Nat), r < n.val → RowsFit s x y r →
    (0xFFF < s.i.toNat + r →
      ∃ t, exec (.drw x y n) s = .next t ∧ t.fault = some (.dataBounds (encode (.drw x y n)) (s.i.toNat + r))) ∧
    ∀ c k, s.i.toNat + r ≤ 0xFFF → c < 8 → PixelSet s r c → PixelCell s x y r c k → 2048 ≤ k →
      (∀ c' k', c' < c → PixelSet s r c' → PixelCell s x y r c' k' → k' < 2048) →
      ∃ t, exec (.drw x y n) s = .next t ∧ t.fault = some (.displayBounds (encode (.drw x y n)) k)

/-- The property of 95_test_vectors.md S8, from R99: the same sprite drawn twice at the same origin restores the display, and the second
draw collides if the first turned a cell on. The origin is the same where x and y are not 0xF, and where VF names a
coordinate (R103) if the flag the first draw left gives the same column or row. -/
def Obligations.DrawTwiceRestoresTheDisplay : Prop :=
  ∀ (x y : Reg) (n : Fin 16) (s t u : State),
    (x ≠ 15 ∨ (t.reg x).toNat % 64 = (s.reg x).toNat % 64) → (y ≠ 15 ∨ (t.reg y).toNat % 32 = (s.reg y).toNat % 32) →
    Runs (.drw x y n) s t → Runs (.drw x y n) t u →
    (∀ k, u.cell k = s.cell k) ∧
    ((∃ k, Covers s x y n.val k ∧ s.cell k = false) → u.reg 15 = 1#8) ∧
    ((∀ k, Covers s x y n.val k → s.cell k = true) → u.reg 15 = 0#8)

/-! ## Control flow -/

/-- R68 (D2, G4): SYS is a no-op. -/
def Obligations.SysDoesNothing : Prop := ∀ (nnn : Addr12) (s : State), ∃ t, exec (.sys nnn) s = .next t ∧ Frame {} s t

/-- R70. -/
def Obligations.JumpSetsPc : Prop :=
  ∀ (nnn : Addr12) (s : State), ∃ t, exec (.jp nnn) s = .next t ∧ t.pc.toNat = nnn.toNat ∧ Frame { pc := true } s t

/-- R76: the offset is V0, and the sum is not masked to 12 bits. -/
def Obligations.JumpWithOffsetAddsVZero : Prop :=
  ∀ (nnn : Addr12) (s : State),
    ∃ t, exec (.jpV0 nnn) s = .next t ∧ t.pc.toNat = nnn.toNat + (s.reg 0).toNat ∧ Frame { pc := true } s t

/-- R71, R24 (out of slots: D7): the advanced PC goes to the slot SP names, SP counts up; a 17th nested call faults. -/
def Obligations.CallPushesTheReturnAddress : Prop :=
  ∀ (nnn : Addr12) (s : State),
    (∀ j : Fin 16, s.sp.toNat = j.val →
      ∃ t, exec (.call nnn) s = .next t ∧ t.stack[j.val] = s.pc ∧ t.sp.toNat = s.sp.toNat + 1 ∧ t.pc.toNat = nnn.toNat ∧
        Frame { pc := true, sp := true, slots := [j.val] } s t) ∧
    (16 ≤ s.sp.toNat → ∃ t, exec (.call nnn) s = .next t ∧ t.fault = some (.stackOverflow (encode (.call nnn)) s.sp))

/-- R69, R24 (out of slots: D7): SP counts down and PC gets the slot, which keeps its value; a pop outside the slots faults. -/
def Obligations.ReturnPopsTheReturnAddress : Prop :=
  ∀ (ign : BitVec 8) (s : State),
    (∀ j : Fin 16, s.sp.toNat = j.val + 1 →
      ∃ t, exec (.ret ign) s = .next t ∧ t.pc = s.stack[j.val] ∧ t.sp.toNat = j.val ∧
        Frame { pc := true, sp := true } s t) ∧
    ((s.sp = 0#8 ∨ 17 ≤ s.sp.toNat) →
      ∃ t, exec (.ret ign) s = .next t ∧ t.fault = some (.stackUnderflow (encode (.ret ign)) (s.sp - 1#8)))

/-- The LIFO property of 95_test_vectors.md S6, from R69 and R71: a return right after a call comes back to the call's return
address at the old depth. -/
def Obligations.ReturnUndoesCall : Prop :=
  ∀ (nnn : Addr12) (ign : BitVec 8) (s t u : State), Runs (.call nnn) s t →
    u.stack = t.stack → u.sp = t.sp → ∃ w, exec (.ret ign) u = .next w ∧ w.pc = s.pc ∧ w.sp = s.sp

/-- R72, R73, R77: the skip adds 2 to the advanced PC when the comparison holds, else nothing changes. -/
def Obligations.ImmediateSkipsCompareVx : Prop :=
  ∀ (x : Reg) (kk : Byte) (s : State),
    (∃ t, exec (.seImm x kk) s = .next t ∧ (s.reg x = kk → t.pc = s.pc + 2#16) ∧ (s.reg x ≠ kk → t.pc = s.pc) ∧
      Frame { pc := true } s t) ∧
    ∃ t, exec (.sneImm x kk) s = .next t ∧ (s.reg x ≠ kk → t.pc = s.pc + 2#16) ∧ (s.reg x = kk → t.pc = s.pc) ∧
      Frame { pc := true } s t

/-- R74, R75 (op[3:0] ignored: D5): as above with Vy, whatever the ignored bits. -/
def Obligations.RegisterSkipsCompareVxAndVy : Prop :=
  ∀ (x y : Reg) (ign : Nibble) (s : State),
    (∃ t, exec (.seReg x y ign) s = .next t ∧ (s.reg x = s.reg y → t.pc = s.pc + 2#16) ∧
      (s.reg x ≠ s.reg y → t.pc = s.pc) ∧ Frame { pc := true } s t) ∧
    ∃ t, exec (.sneReg x y ign) s = .next t ∧ (s.reg x ≠ s.reg y → t.pc = s.pc + 2#16) ∧
      (s.reg x = s.reg y → t.pc = s.pc) ∧ Frame { pc := true } s t

/-! ## Keys and timers -/

/-- R105, R106 (index above 15: D8; one sample a step: D19): the level of key Vx decides the skip; above 15 there is no key and KEY_INDEX is
taken. -/
def Obligations.KeySkipsLookAtKeyVx : Prop :=
  ∀ (x : Reg) (ign : Nibble) (s : State),
    ((s.reg x).toNat ≤ 15 →
      (∃ t, exec (.skp x ign) s = .next t ∧ (s.keyDown (s.reg x).toNat = true → t.pc = s.pc + 2#16) ∧
        (s.keyDown (s.reg x).toNat = false → t.pc = s.pc) ∧ Frame { pc := true } s t) ∧
      ∃ t, exec (.sknp x ign) s = .next t ∧ (s.keyDown (s.reg x).toNat = false → t.pc = s.pc + 2#16) ∧
        (s.keyDown (s.reg x).toNat = true → t.pc = s.pc) ∧ Frame { pc := true } s t) ∧
    (15 < (s.reg x).toNat →
      (∃ t, exec (.skp x ign) s = .next t ∧ t.fault = some (.keyIndex (encode (.skp x ign)) (s.reg x))) ∧
      ∃ t, exec (.sknp x ign) s = .next t ∧ t.fault = some (.keyIndex (encode (.sknp x ign)) (s.reg x)))

/-- R108: the least key down goes to Vx; with no key down PC rolls back by 2 and no register changes. -/
def Obligations.KeyWaitTakesTheLeastKeyOrRollsBack : Prop :=
  ∀ (x : Reg) (s : State),
    ∃ t, exec (.ldVxK x) s = .next t ∧
      (∀ k < 16, s.keyDown k = true → (∀ j < k, s.keyDown j = false) →
        (t.reg x).toNat = k ∧ Frame { regs := [x] } s t) ∧
      ((∀ k < 16, s.keyDown k = false) → t.pc = s.pc - 2#16 ∧ Frame { pc := true } s t)

/-- R107, R109, R110: the moves between Vx and the timers, before the tick. -/
def Obligations.TimerMovesCopyTheByte : Prop :=
  ∀ (x : Reg) (s : State),
    (∃ t, exec (.ldVxDt x) s = .next t ∧ t.reg x = s.dt ∧ Frame { regs := [x] } s t) ∧
    (∃ t, exec (.ldDtVx x) s = .next t ∧ t.dt = s.reg x ∧ Frame { dt := true } s t) ∧
    ∃ t, exec (.ldStVx x) s = .next t ∧ t.st = s.reg x ∧ Frame { st := true } s t

/-- R107, R109, R110, R140 item 4 (corner cases the spec derives): the tick of the same step follows the move. -/
def Obligations.TimerMovesAreFollowedByTheTick : Prop :=
  ∀ (x : Reg) (s : State),
    (Fetches s (.ldVxDt x) →
      ∃ t, step s = .next t ∧ t.reg x = s.dt ∧ t.dt.toNat = s.dt.toNat - 1 ∧ t.st.toNat = s.st.toNat - 1) ∧
    (Fetches s (.ldDtVx x) → ∃ t, step s = .next t ∧ t.dt.toNat = (s.reg x).toNat - 1 ∧ t.st.toNat = s.st.toNat - 1) ∧
    (Fetches s (.ldStVx x) → ∃ t, step s = .next t ∧ t.st.toNat = (s.reg x).toNat - 1 ∧ t.dt.toNat = s.dt.toNat - 1)

/-! ## The host's inputs -/

/-- R29, R30, R123, R124 (D19, D20): the host changes the ports between steps, whatever they carried: the coming step sees the new
value, key levels hold over every later step until the host changes them (log 13), and nothing else changes. -/
def Obligations.HostInputsReachTheComingStep : Prop :=
  (∀ (levels : KeyLevels) (s : State), ∃ t, serve (.keys levels) s = .next t ∧ t.keys = levels ∧ t.randByte = s.randByte ∧
    t = { s with keyInputs := t.keyInputs } ∧
    ∀ (n : Nat) (u : State), Host.Core.run core n t = Host.Outcome.next u → State.keys u = levels) ∧
  ∀ (b : Byte) (s : State), ∃ t, serve (.rand b) s = .next t ∧ t.randByte = b ∧ t.keys = s.keys ∧
    t = { s with randBytes := t.randBytes }
end

