-- ==== Sys2Proof/Laws/Decode.lean ====
section
/-! SUPPORT. The fields of an encoded word, and a word put together again from its fields. -/

namespace Sys2Proof

open Opcode

@[simp] theorem Reg.bits_toFin (r : Reg) : (Reg.bits r).toFin = r := rfl

@[simp] theorem Reg.bits_of_toFin (b : Nibble) : Reg.bits b.toFin = b := rfl

/-! ### Slices of a concatenation -/

/-- A slice of the upper part. -/
theorem extract_append_upper {w v : Nat} (a : BitVec w) (b : BitVec v) (start len : Nat) :
    (a ++ b).extractLsb' (v + start) len = a.extractLsb' start len := by
  ext j hj
  simp [BitVec.getLsbD_append, Nat.add_assoc]

/-- A slice of the lower part. -/
theorem extract_append_lower {w v : Nat} (a : BitVec w) (b : BitVec v) {start len : Nat} (h : start + len ≤ v) :
    (a ++ b).extractLsb' start len = b.extractLsb' start len := by
  ext j hj
  simp [BitVec.getLsbD_append, show start + j < v by omega]

/-- The whole as a slice. -/
theorem extract_whole {w : Nat} (a : BitVec w) : a.extractLsb' 0 w = a := by
  ext j hj
  simp

/-! ### Fields of the three formats (R54) -/

section fields

variable (f g : Nibble) (a : Addr12) (r q : Reg) (k : Byte)

theorem family_encodeA : family (encodeA f a) = f :=
  (extract_append_upper f a 0 4).trans (extract_whole f)

theorem nnn_encodeA : nnn (encodeA f a) = a :=
  (extract_append_lower f a (start := 0) (len := 12) (by omega)).trans (extract_whole a)

theorem low_encodeA : low (encodeA f a) = a.extractLsb' 0 4 :=
  extract_append_lower f a (start := 0) (len := 4) (by omega)

theorem mid_encodeA : mid (encodeA f a) = a.extractLsb' 4 4 :=
  extract_append_lower f a (start := 4) (len := 4) (by omega)

theorem upper_encodeA : upper (encodeA f a) = a.extractLsb' 4 8 :=
  extract_append_lower f a (start := 4) (len := 8) (by omega)

theorem family_encodeXK : family (encodeXK f r k) = f :=
  (extract_append_upper (f ++ Reg.bits r) k 4 4).trans
    ((extract_append_upper f (Reg.bits r) 0 4).trans (extract_whole f))

theorem x_encodeXK : x (encodeXK f r k) = r :=
  congrArg BitVec.toFin <| (extract_append_upper (f ++ Reg.bits r) k 0 4).trans
    ((extract_append_lower f (Reg.bits r) (start := 0) (len := 4) (by omega)).trans (extract_whole (Reg.bits r)))

theorem kk_encodeXK : kk (encodeXK f r k) = k :=
  (extract_append_lower (f ++ Reg.bits r) k (start := 0) (len := 8) (by omega)).trans (extract_whole k)

theorem low_encodeXK : low (encodeXK f r k) = k.extractLsb' 0 4 :=
  extract_append_lower (f ++ Reg.bits r) k (start := 0) (len := 4) (by omega)

theorem mid_encodeXK : mid (encodeXK f r k) = k.extractLsb' 4 4 :=
  extract_append_lower (f ++ Reg.bits r) k (start := 4) (len := 4) (by omega)

/-- Format `XY` is format `XK` whose byte is y and the low nibble. -/
theorem encodeXY_eq : encodeXY f r q g = encodeXK f r (Reg.bits q ++ g) := rfl

theorem y_encodeXY : y (encodeXY f r q g) = q :=
  congrArg BitVec.toFin <| (mid_encodeXK f r (Reg.bits q ++ g)).trans
    ((extract_append_upper (Reg.bits q) g 0 4).trans (extract_whole (Reg.bits q)))

theorem low_encodeXY : low (encodeXY f r q g) = g :=
  (low_encodeXK f r (Reg.bits q ++ g)).trans
    ((extract_append_lower (Reg.bits q) g (start := 0) (len := 4) (by omega)).trans (extract_whole g))

theorem family_encodeXY : family (encodeXY f r q g) = f := family_encodeXK f r _

theorem x_encodeXY : x (encodeXY f r q g) = r := x_encodeXK f r _

theorem n_encodeXY : n (encodeXY f r q g) = g.toFin := congrArg BitVec.toFin (low_encodeXY f g r q)

end fields

/-! ### The ignored bits of families 0x0 and 0xE (R59, R61) -/

section ignored

variable (b : BitVec 8) (g h : Nibble)

theorem low_of_append8 : (b ++ g : Addr12).extractLsb' 0 4 = g :=
  (extract_append_lower b g (start := 0) (len := 4) (by omega)).trans (extract_whole g)

theorem mid_of_append8 : (b ++ g : Addr12).extractLsb' 4 4 = b.extractLsb' 0 4 := extract_append_upper b g 0 4

theorem upper_of_append8 : (b ++ g : Addr12).extractLsb' 4 8 = b :=
  (extract_append_upper b g 0 8).trans (extract_whole b)

theorem low_of_append4 : (g ++ h : Byte).extractLsb' 0 4 = h :=
  (extract_append_lower g h (start := 0) (len := 4) (by omega)).trans (extract_whole h)

theorem mid_of_append4 : (g ++ h : Byte).extractLsb' 4 4 = g :=
  (extract_append_upper g h 0 4).trans (extract_whole g)

end ignored

/-! ### A word from its fields -/

section whole

variable (op : Word)

/-- Two adjacent slices put together. -/
theorem extract_append_extract {w : Nat} (a : BitVec w) (start len len' : Nat) :
    a.extractLsb' (start + len) len' ++ a.extractLsb' start len = a.extractLsb' start (len' + len) := by
  ext j hj
  rw [BitVec.getElem_append]
  by_cases h : j < len
  · simp [h]
  · simp only [h, BitVec.getElem_extractLsb', dite_false]
    congr 1
    omega

theorem encodeA_fields : encodeA (family op) (nnn op) = op :=
  (extract_append_extract op 0 12 4).trans (extract_whole op)

theorem encodeXK_fields : encodeXK (family op) (x op) (kk op) = op := by
  have hi : (family op ++ Reg.bits (x op) : BitVec 8) = op.extractLsb' 8 8 := extract_append_extract op 8 4 4
  rw [encodeXK, hi]
  exact (extract_append_extract op 0 8 8).trans (extract_whole op)

theorem kk_fields : (mid op ++ low op : BitVec 8) = kk op := extract_append_extract op 0 4 4

theorem nnn_fields : (upper op ++ low op : Addr12) = nnn op := extract_append_extract op 0 4 8

theorem encodeXY_fields : encodeXY (family op) (x op) (y op) (low op) = op := by
  have hk : (Reg.bits (y op) ++ low op : BitVec 8) = kk op := kk_fields op
  rw [encodeXY_eq, hk, encodeXK_fields]

theorem low_of_nnn : (nnn op).extractLsb' 0 4 = low op := by
  simp only [nnn, low]
  ext j hj
  simp only [BitVec.getElem_extractLsb', BitVec.getLsbD_extractLsb', Nat.zero_add]
  simp; omega

theorem kk_of_nnn : (nnn op).extractLsb' 0 8 = kk op := by
  simp only [nnn, kk]
  ext j hj
  simp only [BitVec.getElem_extractLsb', BitVec.getLsbD_extractLsb', Nat.zero_add]
  simp; omega

theorem mid_of_upper : (upper op).extractLsb' 0 4 = mid op := by
  simp only [upper, mid]
  ext j hj
  simp only [BitVec.getElem_extractLsb', BitVec.getLsbD_extractLsb', Nat.zero_add]
  simp; omega

end whole

end Sys2Proof
end

