-- ==== Sys2Proof/Laws/State.lean ====
section
/-! SUPPORT. The state record's small lemmas: one per field per update, and what a register reads after a write. -/

namespace Sys2Proof.Machine.State

@[simp] theorem setReg_v (s : State) (x : Reg) (b : Byte) : (s.setReg x b).v = s.v.set x.val b := rfl
@[simp] theorem setReg_i (s : State) (x : Reg) (b : Byte) : (s.setReg x b).i = s.i := rfl
@[simp] theorem setReg_pc (s : State) (x : Reg) (b : Byte) : (s.setReg x b).pc = s.pc := rfl
@[simp] theorem setReg_stack (s : State) (x : Reg) (b : Byte) : (s.setReg x b).stack = s.stack := rfl
@[simp] theorem setReg_sp (s : State) (x : Reg) (b : Byte) : (s.setReg x b).sp = s.sp := rfl
@[simp] theorem setReg_dt (s : State) (x : Reg) (b : Byte) : (s.setReg x b).dt = s.dt := rfl
@[simp] theorem setReg_st (s : State) (x : Reg) (b : Byte) : (s.setReg x b).st = s.st := rfl
@[simp] theorem setReg_disp (s : State) (x : Reg) (b : Byte) : (s.setReg x b).disp = s.disp := rfl
@[simp] theorem setReg_mem (s : State) (x : Reg) (b : Byte) : (s.setReg x b).mem = s.mem := rfl
@[simp] theorem setReg_fault (s : State) (x : Reg) (b : Byte) : (s.setReg x b).fault = s.fault := rfl
@[simp] theorem setReg_keyInputs (s : State) (x : Reg) (b : Byte) : (s.setReg x b).keyInputs = s.keyInputs := rfl
@[simp] theorem setReg_randBytes (s : State) (x : Reg) (b : Byte) : (s.setReg x b).randBytes = s.randBytes := rfl
@[simp] theorem setReg_freeIndex (s : State) (x : Reg) (b : Byte) : (s.setReg x b).freeIndex = s.freeIndex := rfl
@[simp] theorem setReg_boot (s : State) (x : Reg) (b : Byte) : (s.setReg x b).boot = s.boot := rfl
@[simp] theorem setReg_params (s : State) (x : Reg) (b : Byte) : (s.setReg x b).params = s.params := rfl

@[simp] theorem setFlag_v (s : State) (b : Byte) : (s.setFlag b).v = s.v.set 15 b := rfl
@[simp] theorem setFlag_i (s : State) (b : Byte) : (s.setFlag b).i = s.i := rfl
@[simp] theorem setFlag_pc (s : State) (b : Byte) : (s.setFlag b).pc = s.pc := rfl
@[simp] theorem setFlag_stack (s : State) (b : Byte) : (s.setFlag b).stack = s.stack := rfl
@[simp] theorem setFlag_sp (s : State) (b : Byte) : (s.setFlag b).sp = s.sp := rfl
@[simp] theorem setFlag_dt (s : State) (b : Byte) : (s.setFlag b).dt = s.dt := rfl
@[simp] theorem setFlag_st (s : State) (b : Byte) : (s.setFlag b).st = s.st := rfl
@[simp] theorem setFlag_disp (s : State) (b : Byte) : (s.setFlag b).disp = s.disp := rfl
@[simp] theorem setFlag_mem (s : State) (b : Byte) : (s.setFlag b).mem = s.mem := rfl
@[simp] theorem setFlag_fault (s : State) (b : Byte) : (s.setFlag b).fault = s.fault := rfl
@[simp] theorem setFlag_keyInputs (s : State) (b : Byte) : (s.setFlag b).keyInputs = s.keyInputs := rfl
@[simp] theorem setFlag_randBytes (s : State) (b : Byte) : (s.setFlag b).randBytes = s.randBytes := rfl
@[simp] theorem setFlag_freeIndex (s : State) (b : Byte) : (s.setFlag b).freeIndex = s.freeIndex := rfl
@[simp] theorem setFlag_boot (s : State) (b : Byte) : (s.setFlag b).boot = s.boot := rfl
@[simp] theorem setFlag_params (s : State) (b : Byte) : (s.setFlag b).params = s.params := rfl

@[simp] theorem setI_v (s : State) (w : Word) : (s.setI w).v = s.v := rfl
@[simp] theorem setI_i (s : State) (w : Word) : (s.setI w).i = w := rfl
@[simp] theorem setI_pc (s : State) (w : Word) : (s.setI w).pc = s.pc := rfl
@[simp] theorem setI_stack (s : State) (w : Word) : (s.setI w).stack = s.stack := rfl
@[simp] theorem setI_sp (s : State) (w : Word) : (s.setI w).sp = s.sp := rfl
@[simp] theorem setI_dt (s : State) (w : Word) : (s.setI w).dt = s.dt := rfl
@[simp] theorem setI_st (s : State) (w : Word) : (s.setI w).st = s.st := rfl
@[simp] theorem setI_disp (s : State) (w : Word) : (s.setI w).disp = s.disp := rfl
@[simp] theorem setI_mem (s : State) (w : Word) : (s.setI w).mem = s.mem := rfl
@[simp] theorem setI_fault (s : State) (w : Word) : (s.setI w).fault = s.fault := rfl
@[simp] theorem setI_keyInputs (s : State) (w : Word) : (s.setI w).keyInputs = s.keyInputs := rfl
@[simp] theorem setI_randBytes (s : State) (w : Word) : (s.setI w).randBytes = s.randBytes := rfl
@[simp] theorem setI_freeIndex (s : State) (w : Word) : (s.setI w).freeIndex = s.freeIndex := rfl
@[simp] theorem setI_boot (s : State) (w : Word) : (s.setI w).boot = s.boot := rfl
@[simp] theorem setI_params (s : State) (w : Word) : (s.setI w).params = s.params := rfl

@[simp] theorem setPc_v (s : State) (w : Word) : (s.setPc w).v = s.v := rfl
@[simp] theorem setPc_i (s : State) (w : Word) : (s.setPc w).i = s.i := rfl
@[simp] theorem setPc_pc (s : State) (w : Word) : (s.setPc w).pc = w := rfl
@[simp] theorem setPc_stack (s : State) (w : Word) : (s.setPc w).stack = s.stack := rfl
@[simp] theorem setPc_sp (s : State) (w : Word) : (s.setPc w).sp = s.sp := rfl
@[simp] theorem setPc_dt (s : State) (w : Word) : (s.setPc w).dt = s.dt := rfl
@[simp] theorem setPc_st (s : State) (w : Word) : (s.setPc w).st = s.st := rfl
@[simp] theorem setPc_disp (s : State) (w : Word) : (s.setPc w).disp = s.disp := rfl
@[simp] theorem setPc_mem (s : State) (w : Word) : (s.setPc w).mem = s.mem := rfl
@[simp] theorem setPc_fault (s : State) (w : Word) : (s.setPc w).fault = s.fault := rfl
@[simp] theorem setPc_keyInputs (s : State) (w : Word) : (s.setPc w).keyInputs = s.keyInputs := rfl
@[simp] theorem setPc_randBytes (s : State) (w : Word) : (s.setPc w).randBytes = s.randBytes := rfl
@[simp] theorem setPc_freeIndex (s : State) (w : Word) : (s.setPc w).freeIndex = s.freeIndex := rfl
@[simp] theorem setPc_boot (s : State) (w : Word) : (s.setPc w).boot = s.boot := rfl
@[simp] theorem setPc_params (s : State) (w : Word) : (s.setPc w).params = s.params := rfl

@[simp] theorem advancePc_v (s : State) : (s.advancePc).v = s.v := rfl
@[simp] theorem advancePc_i (s : State) : (s.advancePc).i = s.i := rfl
@[simp] theorem advancePc_pc (s : State) : (s.advancePc).pc = s.pc + 2#16 := rfl
@[simp] theorem advancePc_stack (s : State) : (s.advancePc).stack = s.stack := rfl
@[simp] theorem advancePc_sp (s : State) : (s.advancePc).sp = s.sp := rfl
@[simp] theorem advancePc_dt (s : State) : (s.advancePc).dt = s.dt := rfl
@[simp] theorem advancePc_st (s : State) : (s.advancePc).st = s.st := rfl
@[simp] theorem advancePc_disp (s : State) : (s.advancePc).disp = s.disp := rfl
@[simp] theorem advancePc_mem (s : State) : (s.advancePc).mem = s.mem := rfl
@[simp] theorem advancePc_fault (s : State) : (s.advancePc).fault = s.fault := rfl
@[simp] theorem advancePc_keyInputs (s : State) : (s.advancePc).keyInputs = s.keyInputs := rfl
@[simp] theorem advancePc_randBytes (s : State) : (s.advancePc).randBytes = s.randBytes := rfl
@[simp] theorem advancePc_freeIndex (s : State) : (s.advancePc).freeIndex = s.freeIndex := rfl
@[simp] theorem advancePc_boot (s : State) : (s.advancePc).boot = s.boot := rfl
@[simp] theorem advancePc_params (s : State) : (s.advancePc).params = s.params := rfl

@[simp] theorem rollbackPc_v (s : State) : (s.rollbackPc).v = s.v := rfl
@[simp] theorem rollbackPc_i (s : State) : (s.rollbackPc).i = s.i := rfl
@[simp] theorem rollbackPc_pc (s : State) : (s.rollbackPc).pc = s.pc - 2#16 := rfl
@[simp] theorem rollbackPc_stack (s : State) : (s.rollbackPc).stack = s.stack := rfl
@[simp] theorem rollbackPc_sp (s : State) : (s.rollbackPc).sp = s.sp := rfl
@[simp] theorem rollbackPc_dt (s : State) : (s.rollbackPc).dt = s.dt := rfl
@[simp] theorem rollbackPc_st (s : State) : (s.rollbackPc).st = s.st := rfl
@[simp] theorem rollbackPc_disp (s : State) : (s.rollbackPc).disp = s.disp := rfl
@[simp] theorem rollbackPc_mem (s : State) : (s.rollbackPc).mem = s.mem := rfl
@[simp] theorem rollbackPc_fault (s : State) : (s.rollbackPc).fault = s.fault := rfl
@[simp] theorem rollbackPc_keyInputs (s : State) : (s.rollbackPc).keyInputs = s.keyInputs := rfl
@[simp] theorem rollbackPc_randBytes (s : State) : (s.rollbackPc).randBytes = s.randBytes := rfl
@[simp] theorem rollbackPc_freeIndex (s : State) : (s.rollbackPc).freeIndex = s.freeIndex := rfl
@[simp] theorem rollbackPc_boot (s : State) : (s.rollbackPc).boot = s.boot := rfl
@[simp] theorem rollbackPc_params (s : State) : (s.rollbackPc).params = s.params := rfl

@[simp] theorem setDt_v (s : State) (b : Byte) : (s.setDt b).v = s.v := rfl
@[simp] theorem setDt_i (s : State) (b : Byte) : (s.setDt b).i = s.i := rfl
@[simp] theorem setDt_pc (s : State) (b : Byte) : (s.setDt b).pc = s.pc := rfl
@[simp] theorem setDt_stack (s : State) (b : Byte) : (s.setDt b).stack = s.stack := rfl
@[simp] theorem setDt_sp (s : State) (b : Byte) : (s.setDt b).sp = s.sp := rfl
@[simp] theorem setDt_dt (s : State) (b : Byte) : (s.setDt b).dt = b := rfl
@[simp] theorem setDt_st (s : State) (b : Byte) : (s.setDt b).st = s.st := rfl
@[simp] theorem setDt_disp (s : State) (b : Byte) : (s.setDt b).disp = s.disp := rfl
@[simp] theorem setDt_mem (s : State) (b : Byte) : (s.setDt b).mem = s.mem := rfl
@[simp] theorem setDt_fault (s : State) (b : Byte) : (s.setDt b).fault = s.fault := rfl
@[simp] theorem setDt_keyInputs (s : State) (b : Byte) : (s.setDt b).keyInputs = s.keyInputs := rfl
@[simp] theorem setDt_randBytes (s : State) (b : Byte) : (s.setDt b).randBytes = s.randBytes := rfl
@[simp] theorem setDt_freeIndex (s : State) (b : Byte) : (s.setDt b).freeIndex = s.freeIndex := rfl
@[simp] theorem setDt_boot (s : State) (b : Byte) : (s.setDt b).boot = s.boot := rfl
@[simp] theorem setDt_params (s : State) (b : Byte) : (s.setDt b).params = s.params := rfl

@[simp] theorem setSt_v (s : State) (b : Byte) : (s.setSt b).v = s.v := rfl
@[simp] theorem setSt_i (s : State) (b : Byte) : (s.setSt b).i = s.i := rfl
@[simp] theorem setSt_pc (s : State) (b : Byte) : (s.setSt b).pc = s.pc := rfl
@[simp] theorem setSt_stack (s : State) (b : Byte) : (s.setSt b).stack = s.stack := rfl
@[simp] theorem setSt_sp (s : State) (b : Byte) : (s.setSt b).sp = s.sp := rfl
@[simp] theorem setSt_dt (s : State) (b : Byte) : (s.setSt b).dt = s.dt := rfl
@[simp] theorem setSt_st (s : State) (b : Byte) : (s.setSt b).st = b := rfl
@[simp] theorem setSt_disp (s : State) (b : Byte) : (s.setSt b).disp = s.disp := rfl
@[simp] theorem setSt_mem (s : State) (b : Byte) : (s.setSt b).mem = s.mem := rfl
@[simp] theorem setSt_fault (s : State) (b : Byte) : (s.setSt b).fault = s.fault := rfl
@[simp] theorem setSt_keyInputs (s : State) (b : Byte) : (s.setSt b).keyInputs = s.keyInputs := rfl
@[simp] theorem setSt_randBytes (s : State) (b : Byte) : (s.setSt b).randBytes = s.randBytes := rfl
@[simp] theorem setSt_freeIndex (s : State) (b : Byte) : (s.setSt b).freeIndex = s.freeIndex := rfl
@[simp] theorem setSt_boot (s : State) (b : Byte) : (s.setSt b).boot = s.boot := rfl
@[simp] theorem setSt_params (s : State) (b : Byte) : (s.setSt b).params = s.params := rfl

@[simp] theorem setDisp_v (s : State) (d : DisplayCells) : (s.setDisp d).v = s.v := rfl
@[simp] theorem setDisp_i (s : State) (d : DisplayCells) : (s.setDisp d).i = s.i := rfl
@[simp] theorem setDisp_pc (s : State) (d : DisplayCells) : (s.setDisp d).pc = s.pc := rfl
@[simp] theorem setDisp_stack (s : State) (d : DisplayCells) : (s.setDisp d).stack = s.stack := rfl
@[simp] theorem setDisp_sp (s : State) (d : DisplayCells) : (s.setDisp d).sp = s.sp := rfl
@[simp] theorem setDisp_dt (s : State) (d : DisplayCells) : (s.setDisp d).dt = s.dt := rfl
@[simp] theorem setDisp_st (s : State) (d : DisplayCells) : (s.setDisp d).st = s.st := rfl
@[simp] theorem setDisp_disp (s : State) (d : DisplayCells) : (s.setDisp d).disp = d := rfl
@[simp] theorem setDisp_mem (s : State) (d : DisplayCells) : (s.setDisp d).mem = s.mem := rfl
@[simp] theorem setDisp_fault (s : State) (d : DisplayCells) : (s.setDisp d).fault = s.fault := rfl
@[simp] theorem setDisp_keyInputs (s : State) (d : DisplayCells) : (s.setDisp d).keyInputs = s.keyInputs := rfl
@[simp] theorem setDisp_randBytes (s : State) (d : DisplayCells) : (s.setDisp d).randBytes = s.randBytes := rfl
@[simp] theorem setDisp_freeIndex (s : State) (d : DisplayCells) : (s.setDisp d).freeIndex = s.freeIndex := rfl
@[simp] theorem setDisp_boot (s : State) (d : DisplayCells) : (s.setDisp d).boot = s.boot := rfl
@[simp] theorem setDisp_params (s : State) (d : DisplayCells) : (s.setDisp d).params = s.params := rfl

@[simp] theorem setMem_v (s : State) (m : Memory) : (s.setMem m).v = s.v := rfl
@[simp] theorem setMem_i (s : State) (m : Memory) : (s.setMem m).i = s.i := rfl
@[simp] theorem setMem_pc (s : State) (m : Memory) : (s.setMem m).pc = s.pc := rfl
@[simp] theorem setMem_stack (s : State) (m : Memory) : (s.setMem m).stack = s.stack := rfl
@[simp] theorem setMem_sp (s : State) (m : Memory) : (s.setMem m).sp = s.sp := rfl
@[simp] theorem setMem_dt (s : State) (m : Memory) : (s.setMem m).dt = s.dt := rfl
@[simp] theorem setMem_st (s : State) (m : Memory) : (s.setMem m).st = s.st := rfl
@[simp] theorem setMem_disp (s : State) (m : Memory) : (s.setMem m).disp = s.disp := rfl
@[simp] theorem setMem_mem (s : State) (m : Memory) : (s.setMem m).mem = m := rfl
@[simp] theorem setMem_fault (s : State) (m : Memory) : (s.setMem m).fault = s.fault := rfl
@[simp] theorem setMem_keyInputs (s : State) (m : Memory) : (s.setMem m).keyInputs = s.keyInputs := rfl
@[simp] theorem setMem_randBytes (s : State) (m : Memory) : (s.setMem m).randBytes = s.randBytes := rfl
@[simp] theorem setMem_freeIndex (s : State) (m : Memory) : (s.setMem m).freeIndex = s.freeIndex := rfl
@[simp] theorem setMem_boot (s : State) (m : Memory) : (s.setMem m).boot = s.boot := rfl
@[simp] theorem setMem_params (s : State) (m : Memory) : (s.setMem m).params = s.params := rfl

@[simp] theorem tick_v (s : State) : (s.tick).v = s.v := rfl
@[simp] theorem tick_i (s : State) : (s.tick).i = s.i := rfl
@[simp] theorem tick_pc (s : State) : (s.tick).pc = s.pc := rfl
@[simp] theorem tick_stack (s : State) : (s.tick).stack = s.stack := rfl
@[simp] theorem tick_sp (s : State) : (s.tick).sp = s.sp := rfl
@[simp] theorem tick_dt (s : State) : (s.tick).dt = if s.dt = 0#8 then 0#8 else s.dt - 1#8 := rfl
@[simp] theorem tick_st (s : State) : (s.tick).st = if s.st = 0#8 then 0#8 else s.st - 1#8 := rfl
@[simp] theorem tick_disp (s : State) : (s.tick).disp = s.disp := rfl
@[simp] theorem tick_mem (s : State) : (s.tick).mem = s.mem := rfl
@[simp] theorem tick_fault (s : State) : (s.tick).fault = s.fault := rfl
@[simp] theorem tick_keyInputs (s : State) : (s.tick).keyInputs = s.keyInputs := rfl
@[simp] theorem tick_randBytes (s : State) : (s.tick).randBytes = s.randBytes := rfl
@[simp] theorem tick_freeIndex (s : State) : (s.tick).freeIndex = s.freeIndex := rfl
@[simp] theorem tick_boot (s : State) : (s.tick).boot = s.boot := rfl
@[simp] theorem tick_params (s : State) : (s.tick).params = s.params := rfl

@[simp] theorem countStep_v (s : State) : (s.countStep).v = s.v := rfl
@[simp] theorem countStep_i (s : State) : (s.countStep).i = s.i := rfl
@[simp] theorem countStep_pc (s : State) : (s.countStep).pc = s.pc := rfl
@[simp] theorem countStep_stack (s : State) : (s.countStep).stack = s.stack := rfl
@[simp] theorem countStep_sp (s : State) : (s.countStep).sp = s.sp := rfl
@[simp] theorem countStep_dt (s : State) : (s.countStep).dt = s.dt := rfl
@[simp] theorem countStep_st (s : State) : (s.countStep).st = s.st := rfl
@[simp] theorem countStep_disp (s : State) : (s.countStep).disp = s.disp := rfl
@[simp] theorem countStep_mem (s : State) : (s.countStep).mem = s.mem := rfl
@[simp] theorem countStep_fault (s : State) : (s.countStep).fault = s.fault := rfl
@[simp] theorem countStep_keyInputs (s : State) : (s.countStep).keyInputs = nextKeys s.keyInputs := rfl
@[simp] theorem countStep_randBytes (s : State) : (s.countStep).randBytes = s.randBytes.tail := rfl
@[simp] theorem countStep_freeIndex (s : State) : (s.countStep).freeIndex = s.freeIndex + 1 := rfl
@[simp] theorem countStep_boot (s : State) : (s.countStep).boot = .running := rfl
@[simp] theorem countStep_params (s : State) : (s.countStep).params = s.params := rfl

@[simp] theorem raise_v (s : State) (f : Fault) : (s.raise f).v = (Config.afterFault s f).v := rfl
@[simp] theorem raise_i (s : State) (f : Fault) : (s.raise f).i = (Config.afterFault s f).i := rfl
@[simp] theorem raise_pc (s : State) (f : Fault) : (s.raise f).pc = (Config.afterFault s f).pc := rfl
@[simp] theorem raise_stack (s : State) (f : Fault) : (s.raise f).stack = (Config.afterFault s f).stack := rfl
@[simp] theorem raise_sp (s : State) (f : Fault) : (s.raise f).sp = (Config.afterFault s f).sp := rfl
@[simp] theorem raise_dt (s : State) (f : Fault) : (s.raise f).dt = (Config.afterFault s f).dt := rfl
@[simp] theorem raise_st (s : State) (f : Fault) : (s.raise f).st = (Config.afterFault s f).st := rfl
@[simp] theorem raise_disp (s : State) (f : Fault) : (s.raise f).disp = (Config.afterFault s f).disp := rfl
@[simp] theorem raise_mem (s : State) (f : Fault) : (s.raise f).mem = Memory.ofBytes (Config.afterFault s f).byteAt := by
  simp only [raise]
@[simp] theorem raise_fault (s : State) (f : Fault) : (s.raise f).fault = some f := rfl
@[simp] theorem raise_keyInputs (s : State) (f : Fault) : (s.raise f).keyInputs = s.keyInputs := rfl
@[simp] theorem raise_randBytes (s : State) (f : Fault) : (s.raise f).randBytes = s.randBytes := rfl
@[simp] theorem raise_freeIndex (s : State) (f : Fault) : (s.raise f).freeIndex = s.freeIndex := rfl
@[simp] theorem raise_boot (s : State) (f : Fault) : (s.raise f).boot = s.boot := rfl
@[simp] theorem raise_params (s : State) (f : Fault) : (s.raise f).params = s.params := rfl

/-! ### Registers -/

@[simp] theorem reg_setReg (s : State) (x y : Reg) (b : Byte) :
    (s.setReg x b).reg y = if y = x then b else s.reg y := by
  simp only [reg, setReg_v, Vector.getElem_set, Fin.ext_iff, eq_comm]

@[simp] theorem reg_setFlag (s : State) (y : Reg) (b : Byte) :
    (s.setFlag b).reg y = if y = flagReg then b else s.reg y := reg_setReg s flagReg y b

@[simp] theorem reg_setI (s : State) (w : Word) (y : Reg) : (s.setI w).reg y = s.reg y := rfl
@[simp] theorem reg_setPc (s : State) (w : Word) (y : Reg) : (s.setPc w).reg y = s.reg y := rfl
@[simp] theorem reg_advancePc (s : State) (y : Reg) : (s.advancePc).reg y = s.reg y := rfl
@[simp] theorem reg_rollbackPc (s : State) (y : Reg) : (s.rollbackPc).reg y = s.reg y := rfl
@[simp] theorem reg_setDt (s : State) (b : Byte) (y : Reg) : (s.setDt b).reg y = s.reg y := rfl
@[simp] theorem reg_setSt (s : State) (b : Byte) (y : Reg) : (s.setSt b).reg y = s.reg y := rfl
@[simp] theorem reg_setDisp (s : State) (d : DisplayCells) (y : Reg) : (s.setDisp d).reg y = s.reg y := rfl
@[simp] theorem reg_setMem (s : State) (m : Memory) (y : Reg) : (s.setMem m).reg y = s.reg y := rfl
@[simp] theorem reg_tick (s : State) (y : Reg) : (s.tick).reg y = s.reg y := rfl
@[simp] theorem reg_countStep (s : State) (y : Reg) : (s.countStep).reg y = s.reg y := rfl

/-! ### Display cells and bytes of memory -/

@[simp] theorem cell_setReg (s : State) (x : Reg) (b : Byte) (k : Nat) : (s.setReg x b).cell k = s.cell k := rfl
@[simp] theorem byteAt_setReg (s : State) (x : Reg) (b : Byte) (a : Nat) : (s.setReg x b).byteAt a = s.byteAt a := rfl
@[simp] theorem cell_setFlag (s : State) (b : Byte) (k : Nat) : (s.setFlag b).cell k = s.cell k := rfl
@[simp] theorem byteAt_setFlag (s : State) (b : Byte) (a : Nat) : (s.setFlag b).byteAt a = s.byteAt a := rfl
@[simp] theorem cell_setI (s : State) (w : Word) (k : Nat) : (s.setI w).cell k = s.cell k := rfl
@[simp] theorem byteAt_setI (s : State) (w : Word) (a : Nat) : (s.setI w).byteAt a = s.byteAt a := rfl
@[simp] theorem cell_setPc (s : State) (w : Word) (k : Nat) : (s.setPc w).cell k = s.cell k := rfl
@[simp] theorem byteAt_setPc (s : State) (w : Word) (a : Nat) : (s.setPc w).byteAt a = s.byteAt a := rfl
@[simp] theorem cell_advancePc (s : State) (k : Nat) : (s.advancePc).cell k = s.cell k := rfl
@[simp] theorem byteAt_advancePc (s : State) (a : Nat) : (s.advancePc).byteAt a = s.byteAt a := rfl
@[simp] theorem cell_rollbackPc (s : State) (k : Nat) : (s.rollbackPc).cell k = s.cell k := rfl
@[simp] theorem byteAt_rollbackPc (s : State) (a : Nat) : (s.rollbackPc).byteAt a = s.byteAt a := rfl
@[simp] theorem cell_setDt (s : State) (b : Byte) (k : Nat) : (s.setDt b).cell k = s.cell k := rfl
@[simp] theorem byteAt_setDt (s : State) (b : Byte) (a : Nat) : (s.setDt b).byteAt a = s.byteAt a := rfl
@[simp] theorem cell_setSt (s : State) (b : Byte) (k : Nat) : (s.setSt b).cell k = s.cell k := rfl
@[simp] theorem byteAt_setSt (s : State) (b : Byte) (a : Nat) : (s.setSt b).byteAt a = s.byteAt a := rfl
@[simp] theorem byteAt_setDisp (s : State) (d : DisplayCells) (a : Nat) : (s.setDisp d).byteAt a = s.byteAt a := rfl
@[simp] theorem cell_setMem (s : State) (m : Memory) (k : Nat) : (s.setMem m).cell k = s.cell k := rfl
@[simp] theorem cell_tick (s : State) (k : Nat) : (s.tick).cell k = s.cell k := rfl
@[simp] theorem byteAt_tick (s : State) (a : Nat) : (s.tick).byteAt a = s.byteAt a := rfl
@[simp] theorem cell_countStep (s : State) (k : Nat) : (s.countStep).cell k = s.cell k := rfl
@[simp] theorem byteAt_countStep (s : State) (a : Nat) : (s.countStep).byteAt a = s.byteAt a := rfl

@[simp] theorem cell_setDisp (s : State) (d : DisplayCells) (k : Nat) : (s.setDisp d).cell k = Cells.get d k := rfl
@[simp] theorem byteAt_setMem (s : State) (m : Memory) (a : Nat) : (s.setMem m).byteAt a = m.read a := rfl

/-! ### The input ports (R29, R30, R123) -/

theorem keys_cons {s : State} {k : KeyLevels} {rest : List KeyLevels} (h : s.keyInputs = k :: rest) : s.keys = k := by
  simp [keys, h]

theorem randByte_cons {s : State} {b : Byte} {rest : List Byte} (h : s.randBytes = b :: rest) : s.randByte = b := by
  simp [randByte, h]

/-- Writes to different registers commute. -/
theorem setReg_comm (s : State) {x y : Reg} (a b : Byte) (h : x ≠ y) :
    (s.setReg y b).setReg x a = (s.setReg x a).setReg y b := by
  have : y.val ≠ x.val := fun e => h (Fin.ext e.symm)
  simp only [setReg, Vector.set_comm _ _ this]

/-- Two states with the same registers one by one have the same register file. -/
theorem v_eq_of_reg {s t : State} (h : ∀ y, t.reg y = s.reg y) : t.v = s.v := by
  refine Vector.ext fun j hj => ?_
  simpa [reg] using h ⟨j, hj⟩

end Sys2Proof.Machine.State
end

