-- ==== Sys2Proof/Laws/Display.lean ====
section
/-! SUPPORT. The display: a cell after a toggle, and what the blit loop of R99 does. -/

namespace Sys2Proof.Machine

/-! ### Cells -/

@[simp] theorem Cells.get_off (k : Nat) : Cells.get Cells.off k = false := by
  simp [get, off]

theorem Cells.get_toggle (d : DisplayCells) {k : Nat} (hk : k < 2048) (j : Nat) :
    Cells.get (toggle d k) j = (Cells.get d j ^^ decide (j = k)) := by
  have hk' : k / 64 < 32 := by omega
  unfold get toggle
  simp only [hk', dif_pos]
  by_cases hj : j / 64 < 32
  · simp only [hj, dif_pos, Vector.getElem_set]
    by_cases hrow : k / 64 = j / 64
    · have hmod : j % 64 < 64 := Nat.mod_lt _ (by omega)
      have : (k % 64 = j % 64) ↔ (j = k) := by omega
      simp [hrow, BitVec.getLsbD_twoPow, this, Nat.mod_lt k (show 0 < 64 by omega)]
    · have : j ≠ k := by rintro rfl; exact hrow rfl
      simp [hrow, this]
  · have : j ≠ k := by omega
    simp [hj, this]

/-! ### The blit -/

/-- The cells one row's set bits address, in column order. -/
def rowCells (mode : EdgeMode) (ox oy r : Nat) (bits : Byte) (columns : List Nat) : List Nat :=
  columns.filterMap fun c => if spriteBit bits c then cellIndex mode ox oy r c else none

/-- The cells a sprite's set bits address, in drawing order. -/
def spriteCells (s : State) (ox oy : Nat) (rows : List Nat) : List Nat :=
  rows.flatMap fun r => rowCells s.params.edgeMode ox oy r (s.byteAt (s.dataAddr r)) (List.range 8)

/-- Toggling the cells of a list in order. -/
def Blit.toggleAll (b : Blit) (cells : List Nat) : Blit := cells.foldl Blit.toggle b

theorem Blit.toggleAll_append (b : Blit) (l l' : List Nat) :
    b.toggleAll (l ++ l') = (b.toggleAll l).toggleAll l' := List.foldl_append

/-- A row whose set bits all address cells of the grid toggles exactly those cells. -/
theorem Blit.row_ok (b : Blit) (op : Word) (mode : EdgeMode) (ox oy r : Nat) (bits : Byte) (columns : List Nat)
    (h : ∀ k ∈ rowCells mode ox oy r bits columns, k < 2048) :
    b.row op mode ox oy r bits columns = .ok (b.toggleAll (rowCells mode ox oy r bits columns)) := by
  induction columns generalizing b with
  | nil => rfl
  | cons c rest ih =>
    rw [row]
    by_cases hbit : spriteBit bits c
    · rw [if_pos hbit, pixel]
      cases hcell : cellIndex mode ox oy r c with
      | none =>
        have hr : rowCells mode ox oy r bits (c :: rest) = rowCells mode ox oy r bits rest := by
          simp [rowCells, hbit, hcell]
        rw [hr] at h ⊢
        exact ih b h
      | some k =>
        have hr : rowCells mode ox oy r bits (c :: rest) = k :: rowCells mode ox oy r bits rest := by
          simp [rowCells, hbit, hcell]
        rw [hr] at h ⊢
        have hk : k < Config.displayCells := h k (by simp)
        simp only [hk, if_true]
        exact ih (b.toggle k) fun j hj => h j (by simp [hj])
    · have hr : rowCells mode ox oy r bits (c :: rest) = rowCells mode ox oy r bits rest := by
        simp [rowCells, hbit]
      rw [if_neg hbit, hr]
      rw [hr] at h
      exact ih b h

/-- The first column whose set bit addresses a cell beyond the grid ends the row with DISPLAY_BOUNDS. -/
theorem Blit.row_error (b : Blit) (op : Word) (mode : EdgeMode) (ox oy r : Nat) (bits : Byte) (before after : List Nat)
    {c k : Nat} (h : ∀ k ∈ rowCells mode ox oy r bits before, k < 2048) (hbit : spriteBit bits c = true)
    (hcell : cellIndex mode ox oy r c = some k) (hk : 2048 ≤ k) :
    b.row op mode ox oy r bits (before ++ c :: after) = .error (.displayBounds op k) := by
  induction before generalizing b with
  | nil =>
    have : ¬ k < Config.displayCells := by simp [Config.displayCells]; omega
    simp [row, hbit, pixel, hcell, this]
  | cons d rest ih =>
    rw [List.cons_append, row]
    by_cases hd : spriteBit bits d
    · rw [if_pos hd, pixel]
      cases hdc : cellIndex mode ox oy r d with
      | none => exact ih b fun j hj => h j (by simpa [rowCells, hd, hdc] using hj)
      | some j =>
        have hr : rowCells mode ox oy r bits (d :: rest) = j :: rowCells mode ox oy r bits rest := by
          simp [rowCells, hd, hdc]
        rw [hr] at h
        have hj : j < Config.displayCells := h j (by simp)
        simp only [hj, if_true]
        exact ih (b.toggle j) fun i hi => h i (by simp [hi])
    · rw [if_neg hd]
      exact ih b fun j hj => h j (by simpa [rowCells, hd] using hj)

/-- Rows drawn before others: the others go on from what the first ones left. -/
theorem Blit.rows_append (b : Blit) (s : State) (op : Word) (ox oy : Nat) (rows rows' : List Nat)
    (hread : ∀ r ∈ rows, s.dataAddr r ≤ 0xFFF) (hgrid : ∀ k ∈ spriteCells s ox oy rows, k < 2048) :
    b.rows s op ox oy (rows ++ rows') = (b.toggleAll (spriteCells s ox oy rows)).rows s op ox oy rows' := by
  induction rows generalizing b with
  | nil => rfl
  | cons r rest ih =>
    have hs : spriteCells s ox oy (r :: rest)
        = rowCells s.params.edgeMode ox oy r (s.byteAt (s.dataAddr r)) (List.range 8) ++ spriteCells s ox oy rest :=
      List.flatMap_cons
    rw [hs] at hgrid ⊢
    have hr : s.memRead op (s.dataAddr r) = .ok (s.byteAt (s.dataAddr r)) := if_pos (hread r (by simp))
    have hrow := b.row_ok op _ ox oy r _ _ fun k hk => hgrid k (List.mem_append_left _ hk)
    rw [List.cons_append, Blit.rows, hr]
    simp only [hrow, toggleAll_append]
    exact ih _ (fun q hq => hread q (by simp [hq])) fun k hk => hgrid k (List.mem_append_right _ hk)

/-- Rows that are readable and stay on the grid toggle exactly the sprite's cells. -/
theorem Blit.rows_ok (b : Blit) (s : State) (op : Word) (ox oy : Nat) (rows : List Nat)
    (hread : ∀ r ∈ rows, s.dataAddr r ≤ 0xFFF) (hgrid : ∀ k ∈ spriteCells s ox oy rows, k < 2048) :
    b.rows s op ox oy rows = .ok (b.toggleAll (spriteCells s ox oy rows)) := by
  simpa [Blit.rows] using b.rows_append s op ox oy rows [] hread hgrid

/-- A row that cannot be read ends the blit with DATA_BOUNDS, once the rows before it are drawn. -/
theorem Blit.rows_dataBounds (b : Blit) (s : State) (op : Word) (ox oy : Nat) (before after : List Nat) {r : Nat}
    (hread : ∀ q ∈ before, s.dataAddr q ≤ 0xFFF) (hgrid : ∀ k ∈ spriteCells s ox oy before, k < 2048)
    (hr : 0xFFF < s.dataAddr r) :
    b.rows s op ox oy (before ++ r :: after) = .error (.dataBounds op (s.dataAddr r)) := by
  rw [b.rows_append s op ox oy before _ hread hgrid, Blit.rows, State.memRead, if_neg (by omega)]

/-- A set bit beyond the grid ends the blit with DISPLAY_BOUNDS, once everything before it is drawn. -/
theorem Blit.rows_displayBounds (b : Blit) (s : State) (op : Word) (ox oy : Nat) (before after : List Nat) {r : Nat}
    (columns columns' : List Nat) {c k : Nat}
    (hread : ∀ q ∈ before, s.dataAddr q ≤ 0xFFF) (hgrid : ∀ k ∈ spriteCells s ox oy before, k < 2048)
    (hr : s.dataAddr r ≤ 0xFFF) (hcols : List.range 8 = columns ++ c :: columns')
    (hrow : ∀ k ∈ rowCells s.params.edgeMode ox oy r (s.byteAt (s.dataAddr r)) columns, k < 2048)
    (hbit : spriteBit (s.byteAt (s.dataAddr r)) c = true)
    (hcell : cellIndex s.params.edgeMode ox oy r c = some k) (hk : 2048 ≤ k) :
    b.rows s op ox oy (before ++ r :: after) = .error (.displayBounds op k) := by
  rw [b.rows_append s op ox oy before _ hread hgrid, Blit.rows, State.memRead, if_pos hr]
  simp only [hcols, Blit.row_error _ op _ ox oy r _ columns columns' hrow hbit hcell hk]

/-- A row that did not fault has all its set pixels on the grid. -/
theorem Blit.row_ok_inv {b b' : Blit} {op : Word} {mode : EdgeMode} {ox oy r : Nat} {bits : Byte} {columns : List Nat}
    (h : b.row op mode ox oy r bits columns = .ok b') :
    ∀ k ∈ rowCells mode ox oy r bits columns, k < 2048 := by
  induction columns generalizing b with
  | nil => simp [rowCells]
  | cons c rest ih =>
    rw [row] at h
    by_cases hbit : spriteBit bits c
    · rw [if_pos hbit, pixel] at h
      cases hcell : cellIndex mode ox oy r c with
      | none =>
        have hr : rowCells mode ox oy r bits (c :: rest) = rowCells mode ox oy r bits rest := by
          simp [rowCells, hbit, hcell]
        rw [hcell] at h
        exact hr ▸ ih h
      | some k =>
        have hr : rowCells mode ox oy r bits (c :: rest) = k :: rowCells mode ox oy r bits rest := by
          simp [rowCells, hbit, hcell]
        by_cases hk : k < Config.displayCells
        · rw [hcell] at h
          simp only [hk, if_true] at h
          rw [hr]
          exact List.forall_mem_cons.2 ⟨hk, ih h⟩
        · simp [hcell, hk] at h
    · have hr : rowCells mode ox oy r bits (c :: rest) = rowCells mode ox oy r bits rest := by
        simp [rowCells, hbit]
      rw [if_neg hbit] at h
      exact hr ▸ ih h

/-- A blit that did not fault could read every row and kept every set pixel on the grid. -/
theorem Blit.rows_ok_inv {b b' : Blit} {s : State} {op : Word} {ox oy : Nat} {rows : List Nat}
    (h : b.rows s op ox oy rows = .ok b') :
    (∀ r ∈ rows, s.dataAddr r ≤ 0xFFF) ∧ ∀ k ∈ spriteCells s ox oy rows, k < 2048 := by
  induction rows generalizing b with
  | nil => simp [spriteCells]
  | cons r rest ih =>
    rw [Blit.rows, State.memRead] at h
    by_cases hr : s.dataAddr r ≤ 0xFFF
    · rw [if_pos hr] at h
      cases hrow : b.row op s.params.edgeMode ox oy r (s.byteAt (s.dataAddr r)) (List.range 8) with
      | error f => simp [hrow] at h
      | ok b'' =>
        simp only [hrow] at h
        obtain ⟨hread, hgrid⟩ := ih h
        refine ⟨List.forall_mem_cons.2 ⟨hr, hread⟩, fun k hk => ?_⟩
        rcases List.mem_append.1 (by simpa [spriteCells] using hk :
          k ∈ rowCells s.params.edgeMode ox oy r (s.byteAt (s.dataAddr r)) (List.range 8)
            ++ spriteCells s ox oy rest) with hk | hk
        · exact row_ok_inv hrow k hk
        · exact hgrid k hk
    · simp [hr] at h

/-- A blit's fault is DATA_BOUNDS at the address of one of its rows, or DISPLAY_BOUNDS in spill mode. -/
theorem Blit.rows_error_inv {b : Blit} {s : State} {op : Word} {ox oy : Nat} {rows : List Nat} {f : Fault}
    (h : b.rows s op ox oy rows = .error f) :
    (∃ a, f = .dataBounds op a ∧ 0xFFF < a) ∨
      ∃ k, f = .displayBounds op k ∧ 2048 ≤ k ∧ ∃ r c, cellIndex s.params.edgeMode ox oy r c = some k := by
  have row_inv : ∀ (columns : List Nat) (b : Blit) (r : Nat) (bits : Byte) (g : Fault),
      b.row op s.params.edgeMode ox oy r bits columns = .error g →
      ∃ k, g = .displayBounds op k ∧ 2048 ≤ k ∧ ∃ r c, cellIndex s.params.edgeMode ox oy r c = some k := by
    intro columns
    induction columns with
    | nil => intro b r bits g h; simp [row] at h
    | cons c rest ih =>
      intro b r bits g h
      rw [row] at h
      split at h
      · rw [pixel] at h
        cases hcell : cellIndex s.params.edgeMode ox oy r c with
        | none => rw [hcell] at h; exact ih b r bits g h
        | some k =>
          by_cases hk : k < Config.displayCells
          · rw [hcell] at h
            simp only [hk, if_true] at h
            exact ih _ r bits g h
          · simp only [hcell, hk, if_false, Except.error.injEq] at h
            exact ⟨k, h.symm, Nat.le_of_not_lt hk, r, c, hcell⟩
      · exact ih b r bits g h
  induction rows generalizing b with
  | nil => simp [Blit.rows] at h
  | cons r rest ih =>
    rw [Blit.rows, State.memRead] at h
    by_cases hr : s.dataAddr r ≤ 0xFFF
    · rw [if_pos hr] at h
      cases hrow : b.row op s.params.edgeMode ox oy r (s.byteAt (s.dataAddr r)) (List.range 8) with
      | error g =>
        simp only [hrow, Except.error.injEq] at h
        exact Or.inr (h ▸ row_inv _ b r _ g hrow)
      | ok b'' =>
        simp only [hrow] at h
        exact ih h
    · simp only [hr, if_false, Except.error.injEq] at h
      exact Or.inl ⟨_, h.symm, by omega⟩

/-- Toggling distinct cells: each is flipped once, and a collision is a cell of the list that was on before. -/
theorem Blit.toggleAll_spec (b : Blit) {cells : List Nat} (hnodup : cells.Nodup) (hgrid : ∀ k ∈ cells, k < 2048) :
    (∀ j, Cells.get (b.toggleAll cells).disp j = (Cells.get b.disp j ^^ decide (j ∈ cells))) ∧
    (b.toggleAll cells).collided = (b.collided || cells.any fun k => Cells.get b.disp k) := by
  induction cells generalizing b with
  | nil => simp [toggleAll]
  | cons k rest ih =>
    rw [List.nodup_cons] at hnodup
    have hk : k < 2048 := hgrid k (by simp)
    obtain ⟨hget, hcol⟩ := ih (b.toggle k) hnodup.2 fun j hj => hgrid j (by simp [hj])
    have htail : b.toggleAll (k :: rest) = (b.toggle k).toggleAll rest := rfl
    constructor
    · intro j
      rw [htail, hget]
      show (Cells.get (Cells.toggle b.disp k) j ^^ _) = _
      rw [Cells.get_toggle _ hk]
      by_cases hj : j = k
      · subst hj; simp [hnodup.1]
      · simp [hj]
    · rw [htail, hcol]
      show ((b.collided || Cells.get b.disp k) || rest.any fun j => Cells.get (Cells.toggle b.disp k) j) = _
      rw [List.any_cons, Bool.or_assoc]
      congr 2
      rw [Bool.eq_iff_iff]
      simp only [List.any_eq_true]
      refine exists_congr fun j => and_congr_right fun hj => ?_
      have : j ≠ k := fun h => hnodup.1 (h ▸ hj)
      rw [Cells.get_toggle _ hk]
      simp [this]

/-- No two pixels of a sprite address the same cell, in any setting of SPRITE_EDGE_MODE. -/
theorem cellIndex_injective {mode : EdgeMode} {ox oy r c r' c' k : Nat} (hr : r < 32) (hr' : r' < 32) (hc : c < 8)
    (hc' : c' < 8) (h : cellIndex mode ox oy r c = some k) (h' : cellIndex mode ox oy r' c' = some k) :
    r = r' ∧ c = c' := by
  cases mode with
  | spill => simp only [cellIndex, Option.some.injEq] at h h'; omega
  | clip =>
    simp only [cellIndex] at h h'
    split at h <;> split at h' <;> simp_all
    omega
  | wrap => simp only [cellIndex, Option.some.injEq] at h h'; omega

theorem mem_rowCells {mode : EdgeMode} {ox oy r : Nat} {bits : Byte} {columns : List Nat} {k : Nat} :
    k ∈ rowCells mode ox oy r bits columns ↔
      ∃ c ∈ columns, spriteBit bits c = true ∧ cellIndex mode ox oy r c = some k := by
  simp [rowCells]

theorem mem_spriteCells {s : State} {ox oy : Nat} {rows : List Nat} {k : Nat} :
    k ∈ spriteCells s ox oy rows ↔
      ∃ r ∈ rows, ∃ c < 8, spriteBit (s.byteAt (s.dataAddr r)) c = true ∧
        cellIndex s.params.edgeMode ox oy r c = some k := by
  simp [spriteCells, mem_rowCells]

theorem rowCells_nodup {mode : EdgeMode} {ox oy r : Nat} (bits : Byte) (hr : r < 32) :
    (rowCells mode ox oy r bits (List.range 8)).Nodup := by
  have : (List.range 8).Pairwise fun c d => c ≠ d ∧ c < 8 ∧ d < 8 := by decide
  refine List.pairwise_filterMap.2 (this.imp ?_)
  intro c d ⟨hne, hc, hd⟩ k hk j hj hkj
  subst hkj
  split at hk <;> split at hj <;> simp_all
  exact hne (cellIndex_injective hr hr hc hd hk hj).2

theorem spriteCells_nodup (s : State) (ox oy : Nat) {n : Nat} (hn : n < 32) :
    (spriteCells s ox oy (List.range n)).Nodup := by
  refine List.nodup_flatMap.2 ⟨fun r hr => rowCells_nodup _ (by have := List.mem_range.1 hr; omega), ?_⟩
  refine List.pairwise_iff_forall_sublist.2 fun {r q} hsub => ?_
  have hlt : r < q := List.pairwise_iff_forall_sublist.1 List.pairwise_lt_range hsub
  have hq : q < n := List.mem_range.1 (hsub.subset (by simp))
  intro k hk hk'
  obtain ⟨c, hc, -, h⟩ := mem_rowCells.1 hk
  obtain ⟨d, hd, -, h'⟩ := mem_rowCells.1 hk'
  have := (cellIndex_injective (by omega) (by omega) (List.mem_range.1 hc) (List.mem_range.1 hd) h h').1
  omega

end Sys2Proof.Machine
end

