-- ==== Sys2Proof/Laws/Memory.lean ====
section
/-! SUPPORT. Memory: a read after a write, and that every memory operation keeps the canonical form. -/

namespace Sys2Proof.Machine.Memory

@[simp] theorem read_nil (a : Nat) : read [] a = unlisted a := rfl

@[simp] theorem read_cons (c : Host.Cell) (m : Memory) (a : Nat) :
    read (c :: m) a = if c.1 = a then c.2 else read m a := rfl

theorem read_erase_same (m : Memory) (a : Nat) : (erase m a).read a = unlisted a := by
  induction m with
  | nil => rfl
  | cons c m ih =>
    by_cases h : c.1 = a <;> simp_all [erase]

theorem read_erase_other (m : Memory) {a b : Nat} (hne : b ≠ a) : (erase m a).read b = m.read b := by
  induction m with
  | nil => rfl
  | cons c m ih =>
    by_cases h : c.1 = a
    · have : c.1 ≠ b := by omega
      simp_all [erase]
    · simp_all [erase]

theorem read_insert (m : Memory) (a : Nat) (b : Byte) (k : Nat) (habsent : ∀ c ∈ m, c.1 ≠ a) :
    (insert m a b).read k = if k = a then b else m.read k := by
  induction m with
  | nil => simp [insert, eq_comm]
  | cons c m ih =>
    have hc : c.1 ≠ a := habsent c (by simp)
    have ih := ih fun d hd => habsent d (by simp [hd])
    unfold insert
    split
    · simp [eq_comm]
    · simp only [read_cons, ih]
      split
      · have : k ≠ a := by omega
        simp [this]
      · rfl

theorem erase_absent (m : Memory) (a : Nat) : ∀ c ∈ erase m a, c.1 ≠ a := by
  simp [erase]

/-- A read after a write gives the byte written there and every other byte as it was (R45). -/
@[simp] theorem read_write (m : Memory) (a : Nat) (b : Byte) (k : Nat) :
    (write m a b).read k = if k = a then b else m.read k := by
  unfold write
  by_cases hk : k = a
  · subst hk
    split
    · next hb => simp [read_erase_same, hb]
    · simp [read_insert _ _ _ _ (erase_absent m k)]
  · split
    · simp [read_erase_other m hk]
    · simp [read_insert _ _ _ _ (erase_absent m a), read_erase_other m hk, hk]

/-- The bytes of a list stand at rising addresses after `writeList`, and every other byte is as it was. -/
theorem read_writeList (m : Memory) (a : Nat) (bytes : List Byte) (k : Nat) :
    (writeList m a bytes).read k
      = if h : a ≤ k ∧ k - a < bytes.length then bytes[k - a] else m.read k := by
  induction bytes generalizing m a with
  | nil => simp [writeList]
  | cons b rest ih =>
    rw [writeList, ih]
    rcases Nat.lt_trichotomy k a with h | h | h
    · have h1 : ¬ (a + 1 ≤ k ∧ k - (a + 1) < rest.length) := by omega
      have h2 : ¬ (a ≤ k ∧ k - a < (b :: rest).length) := by omega
      have h3 : k ≠ a := by omega
      simp only [h1, h2, dite_false, read_write, h3, if_false]
    · subst h
      simp
    · obtain ⟨d, rfl⟩ : ∃ d, k = a + 1 + d := ⟨k - (a + 1), by omega⟩
      have e1 : a + 1 + d - (a + 1) = d := by omega
      have e2 : a + 1 + d - a = d + 1 := by omega
      have h3 : a + 1 + d ≠ a := by omega
      by_cases hd : d < rest.length
      · simp [e1, e2, hd, show a ≤ a + 1 + d by omega]
      · simp [e1, e2, hd, h3]

/-- The canonical form, said of the list as a whole. -/
theorem wf_iff (m : Memory) :
    m.wf = true ↔ m.Pairwise (fun c d => c.1 < d.1) ∧ ∀ c ∈ m, c.1 < Config.memSize ∧ c.2 ≠ unlisted c.1 := by
  induction m with
  | nil => simp [wf]
  | cons c m ih =>
    simp only [wf, Bool.and_eq_true, decide_eq_true_eq, bne_iff_ne, List.all_eq_true, ih, List.pairwise_cons,
      List.forall_mem_cons]
    tauto

theorem wf_nil : wf [] = true := rfl

theorem wf_erase {m : Memory} (a : Nat) (h : m.wf = true) : (erase m a).wf = true := by
  rw [wf_iff] at h ⊢
  exact ⟨h.1.filter _, fun c hc => h.2 c (List.mem_of_mem_filter hc)⟩

theorem mem_insert {m : Memory} {a : Nat} {b : Byte} {c : Host.Cell} :
    c ∈ insert m a b ↔ c = (a, b) ∨ c ∈ m := by
  induction m with
  | nil => simp [insert]
  | cons d m ih =>
    unfold insert
    split
    · simp
    · simp [ih, or_left_comm]

theorem pairwise_insert {m : Memory} {a : Nat} {b : Byte} (h : m.Pairwise fun c d => c.1 < d.1)
    (habsent : ∀ c ∈ m, c.1 ≠ a) : (insert m a b).Pairwise fun c d => c.1 < d.1 := by
  induction m with
  | nil => simp [insert]
  | cons d m ih =>
    rw [List.pairwise_cons] at h
    have hd : d.1 ≠ a := habsent d (by simp)
    unfold insert
    split
    · next hlt =>
      refine List.pairwise_cons.2 ⟨fun c hc => ?_, List.pairwise_cons.2 h⟩
      rcases List.mem_cons.1 hc with rfl | hc
      · exact hlt
      · exact Nat.lt_trans hlt (h.1 c hc)
    · refine List.pairwise_cons.2 ⟨fun c hc => ?_, ih h.2 fun c hc => habsent c (by simp [hc])⟩
      rcases mem_insert.1 hc with rfl | hc
      · simp only; omega
      · exact h.1 c hc

/-- A write inside the address space keeps the canonical form. -/
theorem wf_write {m : Memory} {a : Nat} (b : Byte) (ha : a < Config.memSize) (h : m.wf = true) :
    (write m a b).wf = true := by
  unfold write
  split
  · exact wf_erase a h
  · next hb =>
    have he := (wf_iff _).1 (wf_erase a h)
    refine (wf_iff _).2 ⟨pairwise_insert he.1 (erase_absent m a), fun c hc => ?_⟩
    rcases mem_insert.1 hc with rfl | hc
    · exact ⟨ha, hb⟩
    · exact he.2 c hc

theorem wf_writeList {m : Memory} {a : Nat} {bytes : List Byte} (hin : a + bytes.length ≤ Config.memSize)
    (h : m.wf = true) : (writeList m a bytes).wf = true := by
  induction bytes generalizing m a with
  | nil => exact h
  | cons b rest ih =>
    rw [List.length_cons] at hin
    exact ih (by omega) (wf_write b (by omega) h)

theorem wf_ofBytes (f : Nat → Byte) : (ofBytes f).wf = true := by
  rw [wf_iff]
  unfold ofBytes
  refine ⟨List.pairwise_map.2 (List.pairwise_lt_range.filter _), fun c hc => ?_⟩
  simp only [List.mem_map, List.mem_filter, List.mem_range, bne_iff_ne] at hc
  obtain ⟨a, ⟨ha, hne⟩, rfl⟩ := hc
  exact ⟨ha, hne⟩

theorem read_map_filter (f : Nat → Byte) (l : List Nat) (a : Nat) :
    read ((l.filter fun a => f a != unlisted a).map fun a => (a, f a)) a
      = if a ∈ l then f a else unlisted a := by
  induction l with
  | nil => simp
  | cons b l ih =>
    by_cases hb : f b = unlisted b
    · by_cases hab : a = b
      · subst hab; simp [hb, ih]
      · simp [hb, ih, hab]
    · by_cases hab : b = a
      · subst hab; simp [hb]
      · simp [hb, hab, ih, Ne.symm hab]

/-- Every byte of the memory made from `f` is `f`'s, inside the address space. -/
theorem read_ofBytes (f : Nat → Byte) {a : Nat} (ha : a < Config.memSize) : (ofBytes f).read a = f a := by
  unfold ofBytes
  rw [read_map_filter]
  simp [ha]

/-- The memory of the unlisted bytes lists nothing. -/
theorem ofBytes_unlisted : ofBytes unlisted = [] := by
  unfold ofBytes
  simp

/-- Two memories in canonical form that read the same everywhere are the same list. -/
theorem eq_of_read_eq {m m' : Memory} (h : m.wf = true) (h' : m'.wf = true) (hr : ∀ a, m.read a = m'.read a) :
    m = m' := by
  induction m generalizing m' with
  | nil =>
    cases m' with
    | nil => rfl
    | cons d m' =>
      have := ((wf_iff _).1 h').2 d (by simp)
      have := hr d.1
      simp_all
  | cons c m ih =>
    have hc := (wf_iff _).1 h
    have head_ne := (hc.2 c (by simp)).2
    cases m' with
    | nil =>
      have := hr c.1
      simp_all
    | cons d m' =>
      have hd := (wf_iff _).1 h'
      have head_ne' := (hd.2 d (by simp)).2
      have below : ∀ {l : Memory} {a : Nat}, (∀ e ∈ l, a < e.1) → read l a = unlisted a := by
        intro l a hl
        induction l with
        | nil => rfl
        | cons e l ihl =>
          have : e.1 ≠ a := Nat.ne_of_gt (hl e (by simp))
          simp [this, ihl fun e he => hl e (by simp [he])]
      have pc := List.pairwise_cons.1 hc.1
      have pd := List.pairwise_cons.1 hd.1
      have same : c.1 = d.1 := by
        rcases Nat.lt_trichotomy c.1 d.1 with hlt | heq | hgt
        · have h1 := hr c.1
          rw [below (l := d :: m') (a := c.1)] at h1
          · simp at h1; exact absurd h1 head_ne
          · intro e he
            rcases List.mem_cons.1 he with rfl | he
            · exact hlt
            · exact Nat.lt_trans hlt (pd.1 e he)
        · exact heq
        · have h1 := hr d.1
          rw [below (l := c :: m) (a := d.1)] at h1
          · simp at h1; exact absurd h1.symm head_ne'
          · intro e he
            rcases List.mem_cons.1 he with rfl | he
            · exact hgt
            · exact Nat.lt_trans hgt (pc.1 e he)
      have bytes : c.2 = d.2 := by simpa [same] using hr c.1
      have tails : m = m' := by
        refine ih ((wf_iff _).2 ⟨pc.2, fun e he => hc.2 e (by simp [he])⟩)
          ((wf_iff _).2 ⟨pd.2, fun e he => hd.2 e (by simp [he])⟩) fun a => ?_
        by_cases ha : a = c.1
        · subst ha
          rw [below pc.1, below (by simpa [same] using pd.1)]
        · have := hr a
          simpa [Ne.symm ha, show d.1 ≠ a by rw [← same]; exact Ne.symm ha] using this
      rw [Prod.ext same bytes, tails]

end Sys2Proof.Machine.Memory
end

