-- ==== Sys2Proof/Laws/Host.lean ====
section
/-! SUPPORT. The host interface: reset under any parameters, field by field, and the load. -/

namespace Sys2Proof.Machine

namespace State

variable (p : Params)

@[simp] theorem resetWith_reg (x : Reg) : (resetWith p).reg x = 0#8 := by simp [reg, resetWith, reset]
@[simp] theorem resetWith_i : (resetWith p).i = 0#16 := rfl
@[simp] theorem resetWith_pc : (resetWith p).pc = p.resetPc := rfl
@[simp] theorem resetWith_stack : (resetWith p).stack = Vector.replicate 16 0#16 := rfl
@[simp] theorem resetWith_sp : (resetWith p).sp = 0#8 := rfl
@[simp] theorem resetWith_dt : (resetWith p).dt = 0#8 := rfl
@[simp] theorem resetWith_st : (resetWith p).st = 0#8 := rfl
@[simp] theorem resetWith_disp : (resetWith p).disp = p.displayInit := rfl
@[simp] theorem resetWith_mem : (resetWith p).mem = Memory.ofBytes (resetByte p) := rfl
@[simp] theorem resetWith_fault : (resetWith p).fault = none := rfl
@[simp] theorem resetWith_params : (resetWith p).params = p := rfl

/-- Memory after reset, byte by byte (R129). -/
theorem resetWith_byteAt {a : Nat} (ha : a < Config.memSize) : (resetWith p).byteAt a = resetByte p a :=
  Memory.read_ofBytes _ ha

theorem resetWith_wf : (resetWith p).mem.wf = true := Memory.wf_ofBytes _

/-- Reset memory is in canonical form. -/
theorem reset_wf : reset.mem.wf = true := rfl

end State

/-- A load that is not refused (R136, R137). -/
theorem hostLoad_ok {image : List Byte} {s : State} (hl : image.length ≤ 3584) (hb : s.boot = .afterReset) :
    hostLoad image s = .next { s.setMem (s.mem.writeList Config.progBase image) with boot := .loaded } := by
  simp [hostLoad, hb, Config.progMax, Nat.not_lt.2 hl]

theorem hostLoad_tooLong {image : List Byte} (s : State) (hl : 3584 < image.length) :
    hostLoad image s = .refused (.loadTooLong image.length) := by
  simp [hostLoad, Config.progMax, hl]

theorem hostLoad_running {image : List Byte} {s : State} (hl : image.length ≤ 3584) (hb : s.boot = .running) :
    hostLoad image s = .refused .loadAfterStep := by
  simp [hostLoad, hb, Config.progMax, Nat.not_lt.2 hl]

theorem hostLoad_loaded {image : List Byte} {s : State} (hl : image.length ≤ 3584) (hb : s.boot = .loaded) :
    hostLoad image s = .refused .secondLoad := by
  simp [hostLoad, hb, Config.progMax, Nat.not_lt.2 hl]

/-- A load that is answered by a next state was in order, and did nothing but copy the image. -/
theorem hostLoad_cases {image : List Byte} {s t : State} (h : hostLoad image s = .next t) :
    image.length ≤ 3584 ∧ s.boot = .afterReset ∧
      t = { s.setMem (s.mem.writeList Config.progBase image) with boot := .loaded } := by
  by_cases hl : image.length ≤ 3584
  · cases hb : s.boot with
    | afterReset =>
      rw [hostLoad_ok hl hb, Host.Outcome.next.injEq] at h
      exact ⟨hl, rfl, h.symm⟩
    | loaded => rw [hostLoad_loaded hl hb] at h; cases h
    | running => rw [hostLoad_running hl hb] at h; cases h
  · rw [hostLoad_tooLong s (Nat.lt_of_not_le hl)] at h
    cases h

/-- The default parameters give State.reset. -/
theorem resetWith_default : State.resetWith defaultParams = State.reset := by
  have : Memory.ofBytes (resetByte defaultParams) = [] := Memory.ofBytes_unlisted
  rw [State.resetWith, this]
  rfl

end Sys2Proof.Machine
end

