-- ==== Sys2Proof/Laws/Ops.lean ====
section
/-! SUPPORT. One lemma per shared operation that says everything it can do. -/

namespace Sys2Proof.Machine

/-! ### Memory accesses (R41, R43, R116) -/

theorem State.memRead_ok (s : State) (op : Word) {a : Nat} (h : a ≤ 0xFFF) : s.memRead op a = .ok (s.byteAt a) :=
  if_pos h

theorem State.memRead_error (s : State) (op : Word) {a : Nat} (h : ¬ a ≤ 0xFFF) :
    s.memRead op a = .error (.dataBounds op a) := if_neg h

/-- Bytes written at rising addresses all land when the last address is in bounds. -/
theorem State.memWriteList_ok (s : State) (op : Word) {a : Nat} {bytes : List Byte}
    (h : a + bytes.length ≤ 0x1000) : s.memWriteList op a bytes = .ok (s.setMem (s.mem.writeList a bytes)) := by
  induction bytes generalizing s a with
  | nil => rfl
  | cons b rest ih =>
    rw [List.length_cons] at h
    have hb : a ≤ 0xFFF := by omega
    have := ih (s := s.setMem (s.mem.write a b)) (a := a + 1) (by omega)
    rw [memWriteList, memWrite, if_pos hb]
    exact this

/-- Otherwise the lowest address out of bounds is reported. -/
theorem State.memWriteList_error (s : State) (op : Word) {a : Nat} {bytes : List Byte} (hne : bytes ≠ [])
    (h : ¬ a + bytes.length ≤ 0x1000) : s.memWriteList op a bytes = .error (.dataBounds op (max a 0x1000)) := by
  induction bytes generalizing s a with
  | nil => exact absurd rfl hne
  | cons b rest ih =>
    rw [List.length_cons] at h
    by_cases hb : a ≤ 0xFFF
    · cases rest with
      | nil => simp at h; omega
      | cons c rest =>
        have := ih (s := s.setMem (s.mem.write a b)) (a := a + 1) (by simp) (by omega)
        rw [show max (a + 1) 0x1000 = max a 0x1000 by omega] at this
        rw [memWriteList]
        simpa [memWrite, hb] using this
    · rw [memWriteList]
      simp [memWrite, hb, show max a 0x1000 = a by omega]

/-- Bytes read at rising addresses are those of memory when the last address is in bounds. -/
theorem State.memReadList_ok (s : State) (op : Word) {a count : Nat} (h : a + count ≤ 0x1000) :
    s.memReadList op a count = .ok ((List.range count).map fun j => s.byteAt (a + j)) := by
  induction count generalizing a with
  | zero => rfl
  | succ k ih =>
    have hb : a ≤ 0xFFF := by omega
    rw [memReadList, s.memRead_ok op hb]
    simp only [ih (a := a + 1) (by omega), List.range_succ_eq_map, List.map_cons, List.map_map, Nat.add_zero]
    congr 3
    funext j
    simp [Nat.add_comm, Nat.add_left_comm]

/-- Otherwise the lowest address out of bounds is reported. -/
theorem State.memReadList_error (s : State) (op : Word) {a count : Nat} (hpos : 0 < count)
    (h : ¬ a + count ≤ 0x1000) : s.memReadList op a count = .error (.dataBounds op (max a 0x1000)) := by
  induction count generalizing a with
  | zero => omega
  | succ k ih =>
    rw [memReadList]
    by_cases hb : a ≤ 0xFFF
    · rw [s.memRead_ok op hb]
      simp only [ih (a := a + 1) (by omega) (by omega), show max (a + 1) 0x1000 = max a 0x1000 by omega]
    · rw [s.memRead_error op hb, show max a 0x1000 = a by omega]

@[simp] theorem State.dataAddr_zero (s : State) : s.dataAddr 0 = s.i.toNat := rfl

/-! ### Register blocks (R95, R96) -/

theorem State.setRegsFrom_reg (s : State) (x : Nat) (bytes : List Byte) (y : Reg) :
    (s.setRegsFrom x bytes).reg y
      = if h : x ≤ y.val ∧ y.val - x < bytes.length then bytes[y.val - x] else s.reg y := by
  induction bytes generalizing s x with
  | nil => simp [setRegsFrom]
  | cons b rest ih =>
    rw [setRegsFrom]
    have hy := y.isLt
    split
    · next hx =>
      rw [ih]
      rcases Nat.lt_trichotomy y.val x with h | h | h
      · have h1 : ¬ (x + 1 ≤ y.val ∧ y.val - (x + 1) < rest.length) := by omega
        have h2 : ¬ (x ≤ y.val ∧ y.val - x < (b :: rest).length) := by omega
        have h3 : y ≠ ⟨x, hx⟩ := by simp [Fin.ext_iff]; omega
        simp only [h1, h2, dite_false, reg_setReg, h3, if_false]
      · have h3 : y = ⟨x, hx⟩ := Fin.ext h
        subst h3
        simp
      · obtain ⟨d, hd⟩ : ∃ d, y.val = x + 1 + d := ⟨y.val - (x + 1), by omega⟩
        have h3 : y ≠ ⟨x, hx⟩ := by simp [Fin.ext_iff]; omega
        have e1 : y.val - (x + 1) = d := by omega
        have e2 : y.val - x = d + 1 := by omega
        by_cases hl : d < rest.length
        · simp [e1, e2, hl, show x + 1 ≤ y.val by omega, show x ≤ y.val by omega]
        · simp [e1, e2, hl, h3]
    · have : ¬ (x ≤ y.val ∧ y.val - x < (b :: rest).length) := by omega
      simp only [this, dite_false]

/-- Loading registers changes nothing but the registers. -/
theorem State.setRegsFrom_eq (s : State) (x : Nat) (bytes : List Byte) :
    s.setRegsFrom x bytes = { s with v := (s.setRegsFrom x bytes).v } := by
  induction bytes generalizing s x with
  | nil => rfl
  | cons b rest ih =>
    rw [setRegsFrom]
    split
    · next hx => rw [ih]; rfl
    · rfl

@[simp] theorem State.regsUpTo_length (s : State) (x : Reg) : (s.regsUpTo x).length = x.val + 1 := by
  simp [regsUpTo]

theorem State.regsUpTo_getElem (s : State) (x : Reg) {j : Nat} (h : j < (s.regsUpTo x).length) :
    (s.regsUpTo x)[j] = s.reg ⟨j, by have := x.isLt; rw [regsUpTo_length] at h; omega⟩ := by
  simp [regsUpTo, reg]

@[simp] theorem bcdDigits_length (a : Byte) : (bcdDigits a).length = 3 := rfl

/-! ### The stack (R24) -/

theorem State.push_ok (s : State) (op w : Word) (h : s.sp.toNat < 16) :
    s.push op w = .ok { s with stack := s.stack.set s.sp.toNat w, sp := s.sp + 1#8 } := dif_pos h

theorem State.push_error (s : State) (op w : Word) (h : ¬ s.sp.toNat < 16) :
    s.push op w = .error (.stackOverflow op s.sp) := dif_neg h

theorem State.pop_ok (s : State) (op : Word) (h : (s.sp - 1#8).toNat < 16) :
    s.pop op = .ok (s.stack[(s.sp - 1#8).toNat], { s with sp := s.sp - 1#8 }) := dif_pos h

theorem State.pop_error (s : State) (op : Word) (h : ¬ (s.sp - 1#8).toNat < 16) :
    s.pop op = .error (.stackUnderflow op (s.sp - 1#8)) := dif_neg h

/-! ### Faults (R114) -/

@[simp] theorem settle_ok (s t : State) : settle s (.ok t) = .next t := rfl

@[simp] theorem settle_error (s : State) (f : Fault) : settle s (.error f) = .next (s.raise f) := rfl

/-- An instruction that runs its pseudocode answers a next state: its own, or the faulted one. -/
theorem settle_cases {s t : State} {r : Except Fault State} (h : settle s r = .next t) :
    r = .ok t ∨ ∃ f, r = .error f ∧ t = s.raise f := by
  cases r with
  | ok u => simp at h; simp [h]
  | error f => simp at h; simp [h]

theorem settle_next (s : State) (r : Except Fault State) : ∃ t, settle s r = .next t := by
  cases r <;> simp

theorem State.wf_raise (s : State) (f : Fault) : (s.raise f).mem.wf = true := by
  rw [raise_mem]
  exact Memory.wf_ofBytes _

/-! ### Keys (R108) -/

theorem State.lowestKeyDown_some {s : State} {k : Nat} :
    s.lowestKeyDown = some k ↔ k < 16 ∧ s.keyDown k = true ∧ ∀ j < k, s.keyDown j = false := by
  simp only [lowestKeyDown, List.find?_range_eq_some, List.mem_range, Bool.not_eq_eq_eq_not, Bool.not_true]
  tauto

theorem State.lowestKeyDown_none {s : State} :
    s.lowestKeyDown = none ↔ ∀ k < 16, s.keyDown k = false := by
  simp [lowestKeyDown]

end Sys2Proof.Machine
end

