-- ==== Sys2Proof/Laws/PerInstr.lean ====
section
/-! SUPPORT. Statements about every instruction, one lemma per constructor. -/

namespace Sys2Proof.Laws.DecodeEncode

open Sys2Proof

/-- A well-formed instruction is what the decoder reads from its word, under either setting of SUBDECODE_0E. -/
def Statement (i : Instr) : Prop := ∀ m, i.wf m = true → decode m (encode i) = .ok i

/-- The two readings of "not SYS": by the operand, and by the nibbles the decoder looks at (R59). -/
theorem isClsOrRet_eq (m : SubDecode) (nnn : Addr12) :
    isClsOrRet m nnn = (highNibbleOk m (nnn.extractLsb' 4 4) 0xE#4 &&
      (nnn.extractLsb' 0 4 == 0x0#4 || nnn.extractLsb' 0 4 == 0xE#4)) := by
  have split8 : nnn.extractLsb' 0 8 = nnn.extractLsb' 4 4 ++ nnn.extractLsb' 0 4 :=
    (extract_append_extract nnn 0 4 4).symm
  cases m with
  | lowNibble => simp [isClsOrRet, highNibbleOk]
  | lowByte =>
    simp only [isClsOrRet, highNibbleOk, split8]
    generalize nnn.extractLsb' 4 4 = hi
    generalize nnn.extractLsb' 0 4 = lo
    revert hi lo
    decide

theorem sys (nnn : Addr12) : Statement (.sys nnn) := by
  intro m h
  simp only [Instr.wf] at h
  rw [isClsOrRet_eq, Bool.not_eq_true', Bool.and_eq_false_iff, Bool.or_eq_false_iff] at h
  simp only [decode, decodeFamily0, encode, family_encodeA, nnn_encodeA, low_encodeA, mid_encodeA]
  rcases h with h | ⟨h0, hE⟩
  · simp [h]
  · simp [h0, hE]

theorem ret (ign : BitVec 8) : Statement (.ret ign) := by
  intro m h
  simp only [Instr.wf] at h
  simp [decode, decodeFamily0, encode, family_encodeA, low_encodeA, mid_encodeA, upper_encodeA, low_of_append8,
    mid_of_append8, upper_of_append8, h]

theorem cls (ign : BitVec 8) : Statement (.cls ign) := by
  intro m h
  simp only [Instr.wf] at h
  simp [decode, decodeFamily0, encode, family_encodeA, low_encodeA, mid_encodeA, upper_encodeA, low_of_append8,
    mid_of_append8, upper_of_append8, h]

theorem jp (nnn : Addr12) : Statement (.jp nnn) := by
  intro m h
  simp [decode, encode, family_encodeA, nnn_encodeA]

theorem call (nnn : Addr12) : Statement (.call nnn) := by
  intro m h
  simp [decode, encode, family_encodeA, nnn_encodeA]

theorem seImm (x : Reg) (kk : Byte) : Statement (.seImm x kk) := by
  intro m h
  simp [decode, encode, family_encodeXK, x_encodeXK, kk_encodeXK]

theorem sneImm (x : Reg) (kk : Byte) : Statement (.sneImm x kk) := by
  intro m h
  simp [decode, encode, family_encodeXK, x_encodeXK, kk_encodeXK]

theorem seReg (x : Reg) (y : Reg) (ign : Nibble) : Statement (.seReg x y ign) := by
  intro m h
  simp [decode, encode, family_encodeXY, x_encodeXY, y_encodeXY, low_encodeXY]

theorem ldImm (x : Reg) (kk : Byte) : Statement (.ldImm x kk) := by
  intro m h
  simp [decode, encode, family_encodeXK, x_encodeXK, kk_encodeXK]

theorem addImm (x : Reg) (kk : Byte) : Statement (.addImm x kk) := by
  intro m h
  simp [decode, encode, family_encodeXK, x_encodeXK, kk_encodeXK]

theorem ldReg (x : Reg) (y : Reg) : Statement (.ldReg x y) := by
  intro m h
  simp [decode, decodeFamily8, encode, family_encodeXY, x_encodeXY, y_encodeXY, low_encodeXY]

theorem orReg (x : Reg) (y : Reg) : Statement (.orReg x y) := by
  intro m h
  simp [decode, decodeFamily8, encode, family_encodeXY, x_encodeXY, y_encodeXY, low_encodeXY]

theorem andReg (x : Reg) (y : Reg) : Statement (.andReg x y) := by
  intro m h
  simp [decode, decodeFamily8, encode, family_encodeXY, x_encodeXY, y_encodeXY, low_encodeXY]

theorem xorReg (x : Reg) (y : Reg) : Statement (.xorReg x y) := by
  intro m h
  simp [decode, decodeFamily8, encode, family_encodeXY, x_encodeXY, y_encodeXY, low_encodeXY]

theorem addReg (x : Reg) (y : Reg) : Statement (.addReg x y) := by
  intro m h
  simp [decode, decodeFamily8, encode, family_encodeXY, x_encodeXY, y_encodeXY, low_encodeXY]

theorem sub (x : Reg) (y : Reg) : Statement (.sub x y) := by
  intro m h
  simp [decode, decodeFamily8, encode, family_encodeXY, x_encodeXY, y_encodeXY, low_encodeXY]

theorem shr (x : Reg) (y : Reg) : Statement (.shr x y) := by
  intro m h
  simp [decode, decodeFamily8, encode, family_encodeXY, x_encodeXY, y_encodeXY, low_encodeXY]

theorem subn (x : Reg) (y : Reg) : Statement (.subn x y) := by
  intro m h
  simp [decode, decodeFamily8, encode, family_encodeXY, x_encodeXY, y_encodeXY, low_encodeXY]

theorem shl (x : Reg) (y : Reg) : Statement (.shl x y) := by
  intro m h
  simp [decode, decodeFamily8, encode, family_encodeXY, x_encodeXY, y_encodeXY, low_encodeXY]

theorem sneReg (x : Reg) (y : Reg) (ign : Nibble) : Statement (.sneReg x y ign) := by
  intro m h
  simp [decode, encode, family_encodeXY, x_encodeXY, y_encodeXY, low_encodeXY]

theorem ldI (nnn : Addr12) : Statement (.ldI nnn) := by
  intro m h
  simp [decode, encode, family_encodeA, nnn_encodeA]

theorem jpV0 (nnn : Addr12) : Statement (.jpV0 nnn) := by
  intro m h
  simp [decode, encode, family_encodeA, nnn_encodeA]

theorem rnd (x : Reg) (kk : Byte) : Statement (.rnd x kk) := by
  intro m h
  simp [decode, encode, family_encodeXK, x_encodeXK, kk_encodeXK]

theorem drw (x : Reg) (y : Reg) (n : Fin 16) : Statement (.drw x y n) := by
  intro m h
  simp [decode, encode, family_encodeXY, x_encodeXY, y_encodeXY, n_encodeXY]

theorem skp (x : Reg) (ign : Nibble) : Statement (.skp x ign) := by
  intro m h
  simp only [Instr.wf] at h
  simp [decode, decodeFamilyE, encode, family_encodeXK, x_encodeXK, low_encodeXK, mid_encodeXK, low_of_append4,
    mid_of_append4, h]

theorem sknp (x : Reg) (ign : Nibble) : Statement (.sknp x ign) := by
  intro m h
  simp only [Instr.wf] at h
  simp [decode, decodeFamilyE, encode, family_encodeXK, x_encodeXK, low_encodeXK, mid_encodeXK, low_of_append4,
    mid_of_append4, h]

theorem ldVxDt (x : Reg) : Statement (.ldVxDt x) := by
  intro m h
  simp [decode, decodeFamilyF, encode, family_encodeXK, x_encodeXK, kk_encodeXK]

theorem ldVxK (x : Reg) : Statement (.ldVxK x) := by
  intro m h
  simp [decode, decodeFamilyF, encode, family_encodeXK, x_encodeXK, kk_encodeXK]

theorem ldDtVx (x : Reg) : Statement (.ldDtVx x) := by
  intro m h
  simp [decode, decodeFamilyF, encode, family_encodeXK, x_encodeXK, kk_encodeXK]

theorem ldStVx (x : Reg) : Statement (.ldStVx x) := by
  intro m h
  simp [decode, decodeFamilyF, encode, family_encodeXK, x_encodeXK, kk_encodeXK]

theorem addIVx (x : Reg) : Statement (.addIVx x) := by
  intro m h
  simp [decode, decodeFamilyF, encode, family_encodeXK, x_encodeXK, kk_encodeXK]

theorem ldFVx (x : Reg) : Statement (.ldFVx x) := by
  intro m h
  simp [decode, decodeFamilyF, encode, family_encodeXK, x_encodeXK, kk_encodeXK]

theorem ldBVx (x : Reg) : Statement (.ldBVx x) := by
  intro m h
  simp [decode, decodeFamilyF, encode, family_encodeXK, x_encodeXK, kk_encodeXK]

theorem ldMemVx (x : Reg) : Statement (.ldMemVx x) := by
  intro m h
  simp [decode, decodeFamilyF, encode, family_encodeXK, x_encodeXK, kk_encodeXK]

theorem ldVxMem (x : Reg) : Statement (.ldVxMem x) := by
  intro m h
  simp [decode, decodeFamilyF, encode, family_encodeXK, x_encodeXK, kk_encodeXK]

end Sys2Proof.Laws.DecodeEncode
end

