-- ==== Sys2Proof/Laws/Step.lean ====
section
/-! SUPPORT. What an instruction and a step can do, said once. -/

namespace Sys2Proof.Machine

/-! ### Instructions whose pseudocode can fault (R112) -/

theorem exec_ret_ok {s : State} (ign : BitVec 8) (h : (s.sp - 1#8).toNat < 16) :
    exec (.ret ign) s
      = .next (({ s with sp := s.sp - 1#8 } : State).setPc s.stack[(s.sp - 1#8).toNat]) := by
  simp [exec, execRet, s.pop_ok _ h]

theorem exec_ret_fault {s : State} (ign : BitVec 8) (h : ¬ (s.sp - 1#8).toNat < 16) :
    exec (.ret ign) s = .next (s.raise (.stackUnderflow (encode (.ret ign)) (s.sp - 1#8))) := by
  simp [exec, execRet, s.pop_error _ h]

theorem exec_call_ok {s : State} (nnn : Addr12) (h : s.sp.toNat < 16) :
    exec (.call nnn) s
      = .next (({ s with stack := s.stack.set s.sp.toNat s.pc, sp := s.sp + 1#8 } : State).setPc (addrOperand nnn)) := by
  simp [exec, execCall, s.push_ok _ _ h]

theorem exec_call_fault {s : State} (nnn : Addr12) (h : ¬ s.sp.toNat < 16) :
    exec (.call nnn) s = .next (s.raise (.stackOverflow (encode (.call nnn)) s.sp)) := by
  simp [exec, execCall, s.push_error _ _ h]

theorem exec_skp_ok {s : State} {x : Reg} (ign : Nibble) (h : (s.reg x).toNat ≤ 15) :
    exec (.skp x ign) s = .next (s.skipIf (s.keyDown (s.reg x).toNat)) := by
  simp [exec, execSkp, State.keyOperand, h]

theorem exec_skp_fault {s : State} {x : Reg} (ign : Nibble) (h : ¬ (s.reg x).toNat ≤ 15) :
    exec (.skp x ign) s = .next (s.raise (.keyIndex (encode (.skp x ign)) (s.reg x))) := by
  simp [exec, execSkp, State.keyOperand, h]

theorem exec_sknp_ok {s : State} {x : Reg} (ign : Nibble) (h : (s.reg x).toNat ≤ 15) :
    exec (.sknp x ign) s = .next (s.skipIf (!s.keyDown (s.reg x).toNat)) := by
  simp [exec, execSknp, State.keyOperand, h]

theorem exec_sknp_fault {s : State} {x : Reg} (ign : Nibble) (h : ¬ (s.reg x).toNat ≤ 15) :
    exec (.sknp x ign) s = .next (s.raise (.keyIndex (encode (.sknp x ign)) (s.reg x))) := by
  simp [exec, execSknp, State.keyOperand, h]

theorem exec_ldBVx_ok {s : State} (x : Reg) (h : s.i.toNat + 2 ≤ 0xFFF) :
    exec (.ldBVx x) s = .next (s.setMem (s.mem.writeList s.i.toNat (bcdDigits (s.reg x)))) := by
  have : s.i.toNat + (bcdDigits (s.reg x)).length ≤ 0x1000 := by simp; omega
  simp [exec, execLdBVx, s.memWriteList_ok _ this]

theorem exec_ldBVx_fault {s : State} (x : Reg) (h : ¬ s.i.toNat + 2 ≤ 0xFFF) :
    exec (.ldBVx x) s = .next (s.raise (.dataBounds (encode (.ldBVx x)) (max s.i.toNat 0x1000))) := by
  have : ¬ s.i.toNat + (bcdDigits (s.reg x)).length ≤ 0x1000 := by simp; omega
  simp [exec, execLdBVx, s.memWriteList_error _ (by simp [bcdDigits]) this]

theorem exec_ldMemVx_ok {s : State} {x : Reg} (h : s.i.toNat + x.val ≤ 0xFFF) :
    exec (.ldMemVx x) s = .next (s.setMem (s.mem.writeList s.i.toNat (s.regsUpTo x))) := by
  have : s.i.toNat + (s.regsUpTo x).length ≤ 0x1000 := by simp; omega
  simp [exec, execLdMemVx, s.memWriteList_ok _ this]

theorem exec_ldMemVx_fault {s : State} {x : Reg} (h : ¬ s.i.toNat + x.val ≤ 0xFFF) :
    exec (.ldMemVx x) s = .next (s.raise (.dataBounds (encode (.ldMemVx x)) (max s.i.toNat 0x1000))) := by
  have hlen : ¬ s.i.toNat + (s.regsUpTo x).length ≤ 0x1000 := by simp; omega
  have hne : s.regsUpTo x ≠ [] := List.ne_nil_of_length_pos (by simp)
  simp [exec, execLdMemVx, s.memWriteList_error _ hne hlen]

theorem exec_ldVxMem_ok {s : State} {x : Reg} (h : s.i.toNat + x.val ≤ 0xFFF) :
    exec (.ldVxMem x) s
      = .next (s.setRegsFrom 0 ((List.range (x.val + 1)).map fun j => s.byteAt (s.i.toNat + j))) := by
  have : s.i.toNat + (x.val + 1) ≤ 0x1000 := by omega
  simp [exec, execLdVxMem, s.memReadList_ok _ this]

theorem exec_ldVxMem_fault {s : State} {x : Reg} (h : ¬ s.i.toNat + x.val ≤ 0xFFF) :
    exec (.ldVxMem x) s = .next (s.raise (.dataBounds (encode (.ldVxMem x)) (max s.i.toNat 0x1000))) := by
  have : ¬ s.i.toNat + (x.val + 1) ≤ 0x1000 := by omega
  simp [exec, execLdVxMem, s.memReadList_error _ (Nat.succ_pos _) this]

/-- DRW either toggles the sprite's cells and leaves the collision in VF, or takes one of its two faults. -/
theorem exec_drw_cases (x y : Reg) (n : Fin 16) (s : State) :
    ((∀ r < n.val, s.dataAddr r ≤ 0xFFF) ∧
      (∀ k ∈ spriteCells s (s.originColumn x) (s.originRow y) (List.range n.val), k < 2048) ∧
      exec (.drw x y n) s = .next
        ((s.setDisp ((Blit.mk s.disp false).toggleAll
            (spriteCells s (s.originColumn x) (s.originRow y) (List.range n.val))).disp).setFlag
          (flagByte ((Blit.mk s.disp false).toggleAll
            (spriteCells s (s.originColumn x) (s.originRow y) (List.range n.val))).collided))) ∨
    ∃ f, exec (.drw x y n) s = .next (s.raise f) ∧
      ((∃ a, f = .dataBounds (encode (.drw x y n)) a ∧ 0xFFF < a) ∨
        ∃ k, f = .displayBounds (encode (.drw x y n)) k ∧ 2048 ≤ k ∧
          ∃ r c, cellIndex s.params.edgeMode (s.originColumn x) (s.originRow y) r c = some k) := by
  cases h : Blit.rows ⟨s.disp, false⟩ s (encode (.drw x y n)) (s.originColumn x) (s.originRow y) (List.range n.val) with
  | error f => exact .inr ⟨f, by simp [exec, execDrw, h], Blit.rows_error_inv h⟩
  | ok b =>
    obtain ⟨hread, hgrid⟩ := Blit.rows_ok_inv h
    have hb := Blit.rows_ok ⟨s.disp, false⟩ s (encode (.drw x y n)) _ _ _ hread hgrid
    rw [h, Except.ok.injEq] at hb
    exact .inl ⟨fun r hr => hread r (List.mem_range.2 hr), hgrid, by simp [exec, execDrw, h, hb]⟩

/-! ### Every instruction answers a next state -/

theorem exec_next (i : Instr) (s : State) : ∃ t, exec i s = .next t := by
  cases i <;> first | exact ⟨_, rfl⟩ | exact settle_next _ _

/-- No instruction touches the host's inputs and the model's own fields, whether it faults or not (R29-R31). -/
theorem exec_own_fields {i : Instr} {s t : State} (h : exec i s = .next t) :
    t.keyInputs = s.keyInputs ∧ t.randBytes = s.randBytes ∧ t.freeIndex = s.freeIndex ∧ t.boot = s.boot ∧
      t.params = s.params := by
  have skip : ∀ b, (s.skipIf b).keyInputs = s.keyInputs ∧ (s.skipIf b).randBytes = s.randBytes ∧
      (s.skipIf b).freeIndex = s.freeIndex ∧ (s.skipIf b).boot = s.boot ∧ (s.skipIf b).params = s.params := by
    intro b
    cases b <;> simp [State.skipIf]
  cases i with
  | seImm x kk => cases h; exact skip _
  | sneImm x kk => cases h; exact skip _
  | seReg x y ign => cases h; exact skip _
  | sneReg x y ign => cases h; exact skip _
  | skp x ign =>
    by_cases hk : (s.reg x).toNat ≤ 15
    · rw [exec_skp_ok ign hk] at h; cases h; exact skip _
    · rw [exec_skp_fault ign hk] at h; cases h; simp
  | sknp x ign =>
    by_cases hk : (s.reg x).toNat ≤ 15
    · rw [exec_sknp_ok ign hk] at h; cases h; exact skip _
    · rw [exec_sknp_fault ign hk] at h; cases h; simp
  | ret ign =>
    by_cases hs : (s.sp - 1#8).toNat < 16
    · rw [exec_ret_ok ign hs] at h; cases h; simp
    · rw [exec_ret_fault ign hs] at h; cases h; simp
  | call nnn =>
    by_cases hs : s.sp.toNat < 16
    · rw [exec_call_ok nnn hs] at h; cases h; simp
    · rw [exec_call_fault nnn hs] at h; cases h; simp
  | ldBVx x =>
    by_cases hi : s.i.toNat + 2 ≤ 0xFFF
    · rw [exec_ldBVx_ok x hi] at h; cases h; simp
    · rw [exec_ldBVx_fault x hi] at h; cases h; simp
  | ldMemVx x =>
    by_cases hi : s.i.toNat + x.val ≤ 0xFFF
    · rw [exec_ldMemVx_ok hi] at h; cases h; simp
    · rw [exec_ldMemVx_fault hi] at h; cases h; simp
  | ldVxMem x =>
    by_cases hi : s.i.toNat + x.val ≤ 0xFFF
    · rw [exec_ldVxMem_ok hi] at h; cases h; rw [State.setRegsFrom_eq]; simp
    · rw [exec_ldVxMem_fault hi] at h; cases h; simp
  | drw x y n =>
    rcases exec_drw_cases x y n s with ⟨-, -, hd⟩ | ⟨f, hd, -⟩ <;> rw [hd] at h <;> cases h <;> simp
  | ldVxK x => cases h; unfold State.awaitKey; split <;> simp
  | _ => cases h; simp [State.setRegFlag]

/-! ### The step (R56) -/

theorem State.fetch_ok {s : State} (h : s.pc.toNat + 1 ≤ 0xFFF) :
    s.fetch = .ok (wordOfBytes (s.byteAt s.pc.toNat) (s.byteAt (s.pc.toNat + 1))) := if_pos h

theorem State.fetch_error {s : State} (h : ¬ s.pc.toNat + 1 ≤ 0xFFF) : s.fetch = .error (.fetchBounds s.pc) := if_neg h

theorem State.endStep_ok {s : State} (h : s.fault = none) : s.endStep = s.tick.countStep := by
  simp [endStep, h]

theorem State.endStep_fault {s : State} {f : Fault} (h : s.fault = some f) : s.endStep = s.countStep := by
  simp [endStep, h]

theorem step_faulted {s : State} {f : Fault} (h : s.fault = some f) : step s = .refused (.stepWhileFaulted f) := by
  simp [step, cycle, h]

theorem step_fetchBounds {s : State} (hf : s.fault = none) (h : ¬ s.pc.toNat + 1 ≤ 0xFFF) :
    step s = .next (s.raise (.fetchBounds s.pc)).countStep := by
  simp [step, cycle, hf, State.fetch_error h, closeStep, State.endStep]

theorem step_exec {s t : State} {i : Instr} (hf : s.fault = none) (hpc : s.pc.toNat + 1 ≤ 0xFFF)
    (hd : decode s.params.subDecode (wordOfBytes (s.byteAt s.pc.toNat) (s.byteAt (s.pc.toNat + 1))) = .ok i)
    (he : exec i s.advancePc = .next t) : step s = .next t.endStep := by
  simp [step, cycle, hf, State.fetch_ok hpc, execOpcode, hd, he, closeStep]

theorem step_unrecognised {s : State} {e : Reject} (hf : s.fault = none) (hpc : s.pc.toNat + 1 ≤ 0xFFF)
    (hd : decode s.params.subDecode (wordOfBytes (s.byteAt s.pc.toNat) (s.byteAt (s.pc.toNat + 1))) = .error e) :
    step s = .next s.advancePc.tick.countStep := by
  simp [step, cycle, hf, State.fetch_ok hpc, execOpcode, hd, execUnrecognised, closeStep, State.endStep]

/-- Everything a step that answers a next state can have done. -/
theorem step_cases {s t : State} (h : step s = .next t) :
    s.fault = none ∧
    ((¬ s.pc.toNat + 1 ≤ 0xFFF ∧ t = (s.raise (.fetchBounds s.pc)).countStep) ∨
     (s.pc.toNat + 1 ≤ 0xFFF ∧
      ((∃ e, decode s.params.subDecode (wordOfBytes (s.byteAt s.pc.toNat) (s.byteAt (s.pc.toNat + 1))) = .error e ∧
          t = s.advancePc.tick.countStep) ∨
        ∃ i u, decode s.params.subDecode (wordOfBytes (s.byteAt s.pc.toNat) (s.byteAt (s.pc.toNat + 1))) = .ok i ∧
          exec i s.advancePc = .next u ∧ t = u.endStep))) := by
  cases hf : s.fault with
  | some f => simp [step_faulted hf] at h
  | none =>
    refine ⟨rfl, ?_⟩
    by_cases hpc : s.pc.toNat + 1 ≤ 0xFFF
    · refine .inr ⟨hpc, ?_⟩
      cases hd : decode s.params.subDecode (wordOfBytes (s.byteAt s.pc.toNat) (s.byteAt (s.pc.toNat + 1))) with
      | error e =>
        rw [step_unrecognised hf hpc hd, Host.Outcome.next.injEq] at h
        exact .inl ⟨e, rfl, h.symm⟩
      | ok i =>
        obtain ⟨u, hu⟩ := exec_next i s.advancePc
        rw [step_exec hf hpc hd hu, Host.Outcome.next.injEq] at h
        exact .inr ⟨i, u, rfl, hu, h.symm⟩
    · rw [step_fetchBounds hf hpc, Host.Outcome.next.injEq] at h
      exact .inl ⟨hpc, h.symm⟩

/-- What every answered step does to the host's inputs and the model's own fields. -/
theorem step_own_fields {s t : State} (h : step s = .next t) :
    t.keyInputs = nextKeys s.keyInputs ∧ t.randBytes = s.randBytes.tail ∧ t.freeIndex = s.freeIndex + 1 ∧
      t.boot = .running ∧ t.params = s.params := by
  obtain ⟨-, ⟨-, rfl⟩ | ⟨-, ⟨e, -, rfl⟩ | ⟨i, u, -, he, rfl⟩⟩⟩ := step_cases h
  · simp
  · simp
  · obtain ⟨h1, h2, h3, -, h5⟩ := exec_own_fields he
    simp only [State.advancePc_keyInputs, State.advancePc_randBytes, State.advancePc_freeIndex,
      State.advancePc_params] at h1 h2 h3 h5
    unfold State.endStep
    split <;> simp [h1, h2, h3, h5]

end Sys2Proof.Machine
end

