-- ==== Sys2Proof/Tests/Slice0.lean ====
section
/-! SUPPORT. Tests: the well-formedness checks, the decoding of a written-out word of every instruction, one or two steps
of every instruction with results from 95_test_vectors.md, and a witness for the hypotheses of every statement. -/

namespace Sys2Proof.Tests

open Sys2Proof Sys2Proof.Machine Sys2Proof.Claims

/-! ### Builders -/

/-- The next state, or reset for an outcome that is none. -/
def answered (r : Result) : State :=
  match r with
  | .next t => t
  | .fault _ => State.reset
  | .refused _ => State.reset

/-- Registers with values. -/
def regs (l : List (Reg × Byte)) (s : State) : State := l.foldl (fun s p => s.setReg p.1 p.2) s

/-- Bytes of memory with values. -/
def bytes (a : Nat) (l : List Byte) (s : State) : State := s.setMem (s.mem.writeList a l)

/-- The state after one step of the word `w` at PC. -/
def run (w : Word) (s : State) : State := answered (step (s.placeOpcode w))

/-! ### WellFormed refuses ill-formed terms -/

/-- 00E0 and 00EE are CLS and RET, not SYS (R59). -/
theorem test_wf_sys_lowByte :
    (Instr.sys 0x0E0).wf .lowByte = false ∧ (Instr.sys 0x0EE).wf .lowByte = false ∧
      (Instr.sys 0x0E1).wf .lowByte = true := by decide

theorem test_wf_sys_lowNibble :
    (Instr.sys 0x120).wf .lowNibble = false ∧ (Instr.sys 0x12E).wf .lowNibble = false ∧
      (Instr.sys 0x121).wf .lowNibble = true := by decide

/-- op[7:4] of CLS, RET, SKP and SKNP is fixed by the low-byte setting (R59, R61). -/
theorem test_wf_cls : (Instr.cls 0x0D).wf .lowByte = false ∧ (Instr.cls 0x3E).wf .lowByte = true := by decide
theorem test_wf_ret : (Instr.ret 0x0D).wf .lowByte = false ∧ (Instr.ret 0x0D).wf .lowNibble = true := by decide
theorem test_wf_skp : (Instr.skp 3 0xA).wf .lowByte = false ∧ (Instr.skp 3 0x9).wf .lowByte = true := by decide
theorem test_wf_sknp : (Instr.sknp 3 0x9).wf .lowByte = false ∧ (Instr.sknp 3 0x9).wf .lowNibble = true := by decide

/-! ### One word of every instruction, from the encoding columns of R58 and R66 -/

theorem test_decode_family0 :
    decode .lowByte 0b0000_0001_0010_0011 = .ok (.sys 0x123) ∧ decode .lowByte 0b0000_0000_1110_0000 = .ok (.cls 0x0E) ∧
      decode .lowByte 0b0000_0000_1110_1110 = .ok (.ret 0x0E) := by decide
theorem test_decode_jp : decode .lowByte 0b0001_0010_0011_0100 = .ok (.jp 0x234) := by decide
theorem test_decode_call : decode .lowByte 0b0010_1111_0000_0001 = .ok (.call 0xF01) := by decide
theorem test_decode_seImm : decode .lowByte 0b0011_0011_0100_0010 = .ok (.seImm 3 0x42) := by decide
theorem test_decode_sneImm : decode .lowByte 0b0100_1010_1000_0001 = .ok (.sneImm 10 0x81) := by decide
theorem test_decode_seReg : decode .lowByte 0b0101_0001_0010_0001 = .ok (.seReg 1 2 1) := by decide
theorem test_decode_ldImm : decode .lowByte 0b0110_1010_0101_1100 = .ok (.ldImm 10 0x5C) := by decide
theorem test_decode_addImm : decode .lowByte 0b0111_0001_0000_0001 = .ok (.addImm 1 0x01) := by decide
theorem test_decode_family8_low :
    decode .lowByte 0b1000_0001_0010_0000 = .ok (.ldReg 1 2) ∧ decode .lowByte 0b1000_0001_0010_0001 = .ok (.orReg 1 2) ∧
      decode .lowByte 0b1000_0001_0010_0010 = .ok (.andReg 1 2) ∧
      decode .lowByte 0b1000_0001_0010_0011 = .ok (.xorReg 1 2) := by decide
theorem test_decode_family8_high :
    decode .lowByte 0b1000_0001_0010_0100 = .ok (.addReg 1 2) ∧ decode .lowByte 0b1000_0001_0010_0101 = .ok (.sub 1 2) ∧
      decode .lowByte 0b1000_0001_0010_0110 = .ok (.shr 1 2) ∧ decode .lowByte 0b1000_0001_0010_0111 = .ok (.subn 1 2) ∧
      decode .lowByte 0b1000_0001_0010_1110 = .ok (.shl 1 2) := by decide
theorem test_decode_sneReg : decode .lowByte 0b1001_0001_0010_1111 = .ok (.sneReg 1 2 0xF) := by decide
theorem test_decode_ldI : decode .lowByte 0b1010_0010_1111_0000 = .ok (.ldI 0x2F0) := by decide
theorem test_decode_jpV0 : decode .lowByte 0b1011_0011_0000_0000 = .ok (.jpV0 0x300) := by decide
theorem test_decode_rnd : decode .lowByte 0b1100_0101_0000_1111 = .ok (.rnd 5 0x0F) := by decide
theorem test_decode_drw : decode .lowByte 0b1101_0001_0010_1111 = .ok (.drw 1 2 15) := by decide
theorem test_decode_familyE :
    decode .lowByte 0b1110_0001_1001_1110 = .ok (.skp 1 9) ∧ decode .lowByte 0b1110_0001_1010_0001 = .ok (.sknp 1 10) := by
  decide
theorem test_decode_familyF_low :
    decode .lowByte 0b1111_0011_0000_0111 = .ok (.ldVxDt 3) ∧ decode .lowByte 0b1111_0011_0000_1010 = .ok (.ldVxK 3) ∧
      decode .lowByte 0b1111_0011_0001_0101 = .ok (.ldDtVx 3) ∧ decode .lowByte 0b1111_0011_0001_1000 = .ok (.ldStVx 3) ∧
      decode .lowByte 0b1111_0011_0001_1110 = .ok (.addIVx 3) := by decide
theorem test_decode_familyF_high :
    decode .lowByte 0b1111_1110_0010_1001 = .ok (.ldFVx 14) ∧ decode .lowByte 0b1111_1110_0011_0011 = .ok (.ldBVx 14) ∧
      decode .lowByte 0b1111_1110_0101_0101 = .ok (.ldMemVx 14) ∧
      decode .lowByte 0b1111_1110_0110_0101 = .ok (.ldVxMem 14) := by decide

/-- VE6, VE8, VE9: unrecognised words. -/
theorem test_decode_unrecognised :
    decode .lowByte 0x8128 = .error (.unrecognised 0x8128) ∧ decode .lowNibble 0xE19F = .error (.unrecognised 0xE19F) ∧
      decode .lowByte 0xF0FF = .error (.unrecognised 0xF0FF) ∧ decodeBytes .lowByte [0x12] = .error .truncated := by decide

/-- VE3: SYS under `low_byte`, CLS under `low_nibble`. -/
theorem test_decode_zero : decode .lowByte 0x0000 = .ok (.sys 0) ∧ decode .lowNibble 0x0000 = .ok (.cls 0) := by decide

/-- The row word is laid out first byte at the lower address (R40). -/
theorem test_decodeTableWord : decodeTableWord 16 0x1234 = some (.jp 0x234) ∧ decodeTableWord 16 0x8128 = none := by decide

/-! ### The step -/

/-- VE1: big-endian fetch. -/
theorem test_fetch_order : (answered (step (bytes 0x200 [0x12, 0x34] .reset))).pc = 0x234 := by decide

/-- VE7: an unrecognised opcode still lets the timers tick. -/
theorem test_unrecognised_ticks : (let t := run 0x8ABF (State.reset.setDt 4); (t.pc, t.dt)) = (0x202, 3) := by decide

/-- VE10: the last fetch inside memory. -/
theorem test_fetch_last : (run 0x00E0 (State.reset.setPc 0xFFE)).pc = 0x1000 := by decide

/-- VE11. -/
theorem test_fetch_bounds : (answered (step (State.reset.setPc 0xFFF))).fault = some (.fetchBounds 0xFFF) := by decide

/-- VE13: an odd PC is normal. -/
theorem test_odd_pc : (run 0x1201 (State.reset.setPc 0x201)).pc = 0x201 := by decide

/-- S11: the timers stop at 0. -/
theorem test_tick : (let t := run 0x0123 ((State.reset.setDt 0).setSt 2); (t.dt, t.st)) = (0, 1) := by decide

/-! ### Control flow -/

/-- VE2. -/
theorem test_sys : (run 0x0123 .reset).pc = 0x202 := by decide
/-- VC1. -/
theorem test_jp : (run 0x1208 .reset).pc = 0x208 := by decide
/-- S6. -/
theorem test_call : (let t := run 0x2300 .reset; (t.pc, t.sp, t.stack[0])) = (0x300, 1, 0x202) := by decide
/-- VC4. -/
theorem test_call_overflow : (run 0x2300 { State.reset with sp := 16 }).fault = some (.stackOverflow 0x2300 16) := by decide
/-- VC6. -/
theorem test_ret :
    (let t := run 0x00EE { State.reset with sp := 2, stack := State.reset.stack.set 1 0x456 }; (t.pc, t.sp, t.stack[1]))
      = (0x456, 1, 0x456) := by decide
/-- VC5. -/
theorem test_ret_underflow : (run 0x00EE .reset).fault = some (.stackUnderflow 0x00EE 255) := by decide
/-- VC7, VC8. -/
theorem test_seImm :
    (run 0x3342 (regs [(3, 0x42)] .reset)).pc = 0x204 ∧ (run 0x3342 (regs [(3, 0x41)] .reset)).pc = 0x202 := by decide
/-- VC9, VC10. -/
theorem test_sneImm :
    (run 0x4342 (regs [(3, 0x41)] .reset)).pc = 0x204 ∧ (run 0x4342 (regs [(3, 0x42)] .reset)).pc = 0x202 := by decide
/-- VE4. -/
theorem test_seReg : (run 0x5121 (regs [(1, 7), (2, 7)] .reset)).pc = 0x204 := by decide
/-- VE5, VC12. -/
theorem test_sneReg :
    (run 0x912F (regs [(1, 7), (2, 8)] .reset)).pc = 0x204 ∧ (run 0x9110 (regs [(1, 9)] .reset)).pc = 0x202 := by decide
/-- VC15, VC16. -/
theorem test_jpV0 :
    (run 0xBFFF (regs [(0, 0xFF)] .reset)).pc = 0x10FE ∧ (run 0xB300 (regs [(5, 0x20)] .reset)).pc = 0x300 := by decide

/-! ### ALU -/

/-- S1. -/
theorem test_ldImm : (run 0x6A5C .reset).reg 10 = 0x5C := by decide
/-- S2. -/
theorem test_addImm_wraps :
    (let t := run 0x7101 (regs [(1, 0xFF), (15, 0x77)] .reset); (t.reg 1, t.reg 15)) = (0x00, 0x77) := by decide
/-- VA3. -/
theorem test_ldReg : (run 0x8120 (regs [(2, 0xAB)] .reset)).reg 1 = 0xAB := by decide
/-- VA4. -/
theorem test_or : (run 0x8121 (regs [(1, 0xF0), (2, 0x0F)] .reset)).reg 1 = 0xFF := by decide
/-- VA5. -/
theorem test_and : (run 0x8122 (regs [(1, 0xF0), (2, 0x3C)] .reset)).reg 1 = 0x30 := by decide
/-- VA6. -/
theorem test_xor : (run 0x8123 (regs [(1, 0xF0), (2, 0x3C)] .reset)).reg 1 = 0xCC := by decide
/-- VA9: VF is read before the flag write. -/
theorem test_addReg :
    (let t := run 0x81F4 (regs [(1, 0x10), (15, 0xF5)] .reset); (t.reg 1, t.reg 15)) = (0x05, 1) := by decide
/-- VA10: the flag overwrites the sum. -/
theorem test_addReg_flag_last : (run 0x8F14 (regs [(15, 0xFF), (1, 0x01)] .reset)).reg 15 = 1 := by decide
/-- S4. -/
theorem test_sub :
    (let t := run 0x8125 (regs [(1, 3), (2, 5)] .reset); (t.reg 1, t.reg 15)) = (0xFE, 0) := by decide
/-- VA11: the comparison is strict. -/
theorem test_sub_equal :
    (let t := run 0x8125 (regs [(1, 5), (2, 5), (15, 9)] .reset); (t.reg 1, t.reg 15)) = (0, 0) := by decide
/-- VA17: Vy is not used. -/
theorem test_shr :
    (let t := run 0x8126 (regs [(1, 2), (2, 0xFF)] .reset); (t.reg 1, t.reg 15)) = (1, 0) := by decide
/-- VA18. -/
theorem test_shr_flag_last : (run 0x8F06 (regs [(15, 3)] .reset)).reg 15 = 1 := by decide
/-- VA19. -/
theorem test_subn :
    (let t := run 0x8127 (regs [(1, 3), (2, 5)] .reset); (t.reg 1, t.reg 15)) = (2, 1) := by decide
/-- S5. -/
theorem test_shl :
    (let t := run 0x810E (regs [(1, 0x81)] .reset); (t.reg 1, t.reg 15)) = (0x02, 1) := by decide
/-- VA24 under `raw`. -/
theorem test_shl_raw :
    (run 0x8FFE (regs [(15, 0x80)] { State.reset with params := { defaultParams with shiftFlag := .raw } })).reg 15
      = 0x80 := by decide
/-- VA25. -/
theorem test_rnd :
    (let t := run 0xC30F { State.reset with randBytes := [0xAB, 0xCD] }; (t.reg 3, t.randBytes)) = (0x0B, [0xCD]) := by decide

/-! ### Index register and memory -/

/-- VM1. -/
theorem test_ldI : (run 0xAFFF .reset).i = 0xFFF := by decide
/-- VM3. -/
theorem test_addI_wraps : (run 0xF01E (regs [(0, 2)] (State.reset.setI 0xFFFF))).i = 1 := by decide
/-- VM2. -/
theorem test_addI_no_flag :
    (let t := run 0xF01E (regs [(0, 1), (15, 7)] (State.reset.setI 0xFFF)); (t.i, t.reg 15)) = (0x1000, 7) := by decide
/-- VM4, VM6. -/
theorem test_ldF : (run 0xF029 (regs [(0, 15)] .reset)).i = 0x09B ∧ (run 0xF029 (regs [(0, 0xFF)] .reset)).i = 0x54B := by
  decide
/-- VM8 and P1's 0xFE. -/
theorem test_ldB :
    (let t := run 0xF033 (regs [(0, 0xFE)] (State.reset.setI 0x300)); (t.byteAt 0x300, t.byteAt 0x301, t.byteAt 0x302))
      = (2, 5, 4) := by decide
/-- VM9. -/
theorem test_ldB_bounds : (run 0xF033 (regs [(0, 1)] (State.reset.setI 0xFFE))).fault = some (.dataBounds 0xF033 0x1000) := by
  decide
/-- VM10. -/
theorem test_ldMem :
    (let t := run 0xF255 (regs [(0, 1), (1, 2), (2, 3)] (State.reset.setI 0xFFD)); (t.byteAt 0xFFD, t.byteAt 0xFFF, t.i))
      = (1, 3, 0xFFD) := by decide
/-- VM15: the stored word is the next instruction. -/
theorem test_ldMem_next_fetch :
    (answered (step (run 0xF155 (regs [(0, 0x12), (1, 0x34)] (State.reset.setI 0x202))))).pc = 0x234 := by decide
/-- VM13. -/
theorem test_ldVxMem :
    (let t := run 0xFF65 (bytes 0x400 [16, 17, 18, 19, 20, 21, 22, 23, 24, 25, 26, 27, 28, 29, 30, 31] (State.reset.setI 0x400));
      (t.reg 0, t.reg 7, t.reg 15, t.i)) = (16, 23, 31, 0x400) := by decide
/-- VM14. -/
theorem test_ldVxMem_bounds : (run 0xF065 (State.reset.setI 0x1000)).fault = some (.dataBounds 0xF065 0x1000) := by decide

/-! ### Display -/

/-- A sprite at 0x300 and an origin in V0 and V1. -/
def sprite (rows : List Byte) (column row : Byte) : State := bytes 0x300 rows (regs [(0, column), (1, row)] (State.reset.setI 0x300))

/-- VD1. -/
theorem test_cls : (run 0x00E0 (State.reset.setDisp (Vector.replicate 32 0xFF#64))).disp = Vector.replicate 32 0#64 := by decide
/-- VD15: row 0 spills to cell 70, row 1 draws cell 127. S8: the second draw collides and turns the cells off. -/
theorem test_drw_pixels :
    (let t := run 0xD012 (sprite [0x01, 0x80] 63 0); (t.cell 70, t.cell 127, t.cell 63, t.reg 15)) = (true, true, false, 0) ∧
    (let t := run 0xD011 ((run 0xD011 (sprite [0xC0] 0 0)).setPc 0x200); (t.cell 0, t.cell 1, t.reg 15)) = (false, false, 1) := by
  decide
/-- VD6: past the last row. VD4 and VD5: the other two edge modes. -/
theorem test_drw_edges :
    (run 0xD012 (sprite [0x80, 0x80] 0 31)).fault = some (.displayBounds 0xD012 2048) ∧
    (let t := run 0xD011 { sprite [0xF0] 62 0 with params := { defaultParams with edgeMode := .clip } };
      (t.cell 63, t.cell 64, t.cell 0)) = (true, false, false) ∧
    (let t := run 0xD011 { sprite [0xF0] 62 0 with params := { defaultParams with edgeMode := .wrap } };
      (t.cell 63, t.cell 64, t.cell 0)) = (true, false, true) := by decide

/-! ### Keys and timers -/

/-- VT9, VT10. -/
theorem test_skp :
    (run 0xE19E (regs [(1, 0x0A)] { State.reset with keyInputs := [0x0400] })).pc = 0x204 ∧
      (run 0xE19E (regs [(1, 0x0A)] { State.reset with keyInputs := [0xFBFF] })).pc = 0x202 := by decide
/-- VT13. -/
theorem test_skp_index : (run 0xE19E (regs [(1, 0x10)] .reset)).fault = some (.keyIndex 0xE19E 0x10) := by decide
/-- VT11, VT12. -/
theorem test_sknp :
    (run 0xE1A1 (regs [(1, 0x0A)] { State.reset with keyInputs := [0xFBFF] })).pc = 0x204 ∧
      (run 0xE1A1 (regs [(1, 0x0A)] { State.reset with keyInputs := [0x0400] })).pc = 0x202 := by decide
/-- VT14. -/
theorem test_sknp_index : (run 0xE1A1 (regs [(1, 0xFF)] .reset)).fault = some (.keyIndex 0xE1A1 0xFF) := by decide
/-- VT4. -/
theorem test_ldVxDt : (let t := run 0xF307 (State.reset.setDt 5); (t.reg 3, t.dt)) = (5, 4) := by decide
/-- VT6. -/
theorem test_ldVxK_down :
    (let t := run 0xF50A { State.reset with keyInputs := [0x0208] }; (t.reg 5, t.pc)) = (3, 0x202) := by decide
/-- S9. -/
theorem test_ldVxK_none :
    (let t := run 0xF30A { State.reset with pc := 0x204, dt := 3, st := 1, keyInputs := [0] }; (t.pc, t.dt, t.st))
      = (0x204, 2, 0) := by decide
/-- VT1. -/
theorem test_ldDtVx : (run 0xF015 (regs [(0, 3)] .reset)).dt = 2 := by decide
/-- VT3. -/
theorem test_ldStVx : (run 0xF018 (regs [(0, 1)] .reset)).st = 0 := by decide

/-! ### The host interface -/

/-- P1's first word loaded and run; the font's last glyph stands at 0x09B (R131). -/
theorem test_load : (answered (step (answered (hostLoad [0x60, 0xFE] .reset)))).reg 0 = 0xFE := by decide
/-- A second load is refused, and so is one after a step (R136, R137). -/
theorem test_load_once :
    hostLoad [1] (answered (hostLoad [0x60, 0xFE] .reset)) = .refused .secondLoad ∧
      hostLoad [1] (run 0x0123 .reset) = .refused .loadAfterStep := ⟨rfl, rfl⟩

/-- A byte set before a step that is no RND is gone: RND gets the one set last (R123, R124). -/
theorem test_rand_is_this_steps :
    (match serveAll [.load [0x01, 0x23, 0xC3, 0xFF], .rand 0xAA, .step, .rand 0xBB, .rand 0xCC, .step] .reset with
      | .next t => t.reg 3
      | .fault _ => 0
      | .refused _ => 0) = 0xCC := by decide

theorem test_font : State.reset.byteAt 0x09B = 0xF0 ∧ State.reset.byteAt 0x0A0 = 0x00 := by decide

/-! ### Witnesses: a state and operands that meet all hypotheses of each statement that has some -/

/-- A state whose next step runs the word `w`. -/
def about (w : Word) : State := State.reset.placeOpcode w

/-- A machine with another font and other bytes at reset. -/
def otherParams : Params :=
  { defaultParams with font := Vector.replicate 16 (Vector.replicate 5 7#8), memInit := [(0xA0, 9#8)] }

/-- The bounds of both memory clauses meet at 0x09F and 0x0A0, where the bytes come from the font and from MEM_INIT. -/
theorem witness_ResetUnderEveryParameter :
    0x050 + 5 * (15 : Fin 16).val + (4 : Fin 5).val = 0x09F ∧ (0x0A0 < 4096 ∧ 0x0A0 ≤ 0x0A0) ∧ (0x04F < 4096 ∧ 0x04F < 0x050) ∧
      (State.resetWith otherParams).byteAt 0x09F = 7 ∧ (State.resetWith otherParams).byteAt 0x0A0 = 9 := by
  refine ⟨by decide, by decide, by decide, ?_, ?_⟩ <;> rw [State.resetWith_byteAt _ (by decide)] <;> rfl

theorem witness_OnlyResetClearsAFault :
    ∃ t, ({ State.reset with fault := some (.fetchBounds 0xFFF) } : State).fault = some (.fetchBounds 0xFFF) ∧
      HostRequest.keys 5 ≠ .reset ∧
      serve (.keys 5) { State.reset with fault := some (.fetchBounds 0xFFF) } = .next t :=
  ⟨_, rfl, nofun, rfl⟩

/-- The longest image loads, one byte more does not, and no image does after a step or a load. -/
theorem witness_LoadCopiesTheImageOrIsRefused :
    ((List.replicate 3584 1#8).length ≤ 3584 ∧ State.reset.boot = .afterReset) ∧ 3584 < (List.replicate 3585 1#8).length ∧
      ([1#8].length ≤ 3584 ∧ (run 0x0123 .reset).boot = .running) ∧
      ([1#8].length ≤ 3584 ∧ (answered (hostLoad [1] .reset)).boot = .loaded) := by
  refine ⟨⟨by rw [List.length_replicate], rfl⟩, by rw [List.length_replicate]; decide, ⟨by decide, rfl⟩, by decide, rfl⟩

/-- Keys set once, then three steps that all answer. -/
theorem witness_HostInputsReachTheComingStep :
    ∃ t u, serve (.keys 5) .reset = .next t ∧ Host.Core.run core 3 t = Host.Outcome.next u := ⟨_, _, rfl, rfl⟩

theorem witness_FaultPortsShowCodeAndInfo :
    State.reset.fault = none ∧ (answered (step (State.reset.setPc 0xFFFF))).fault = some (.fetchBounds 0xFFFF) ∧
      (run 0xF033 (State.reset.setI 0xFFFF)).fault = some (.dataBounds 0xF033 0xFFFF) ∧
      (run 0x2300 { State.reset with sp := 255 }).fault = some (.stackOverflow 0x2300 255) ∧
      (run 0x00EE { State.reset with sp := 17 }).fault = some (.stackUnderflow 0x00EE 16) ∧
      (run 0xE09E (regs [(0, 16)] .reset)).fault = some (.keyIndex 0xE09E 16) ∧
      (run 0xD011 (sprite [0xF0] 61 31)).fault = some (.displayBounds 0xD011 2048) := by decide

theorem witness_DecodeOfEncodeIsTheInstruction :
    (Instr.sys 0xFFF).wf .lowByte = true ∧ (Instr.cls 0xFE).wf .lowByte = true ∧ (Instr.sknp 15 0xA).wf .lowByte = true ∧
      (Instr.cls 0x00).wf .lowNibble = true ∧ (Instr.drw 15 15 15).wf .lowByte = true := by decide

theorem witness_EncodeOfDecodeIsTheWord :
    decode .lowByte 0x5121 = .ok (.seReg 1 2 1) ∧ decode .lowNibble 0x0F30 = .ok (.cls 0xF3) := by decide

/-- Both sides of the list meet at 8xy7 / 8xy8, Ex9E / Ex9F and Fx65 / Fx66. -/
theorem witness_UnrecognisedWordsAreExactlyTheListed :
    decode .lowByte 0x8008 = .error (.unrecognised 0x8008) ∧ decode .lowByte 0x8007 = .ok (.subn 0 0) ∧
      decode .lowByte 0xE09F = .error (.unrecognised 0xE09F) ∧ decode .lowByte 0xE09E = .ok (.skp 0 9) ∧
      decode .lowByte 0xF066 = .error (.unrecognised 0xF066) ∧ decode .lowByte 0xF065 = .ok (.ldVxMem 0) := by decide

theorem canFetch_about (w : Word) : CanFetch (about w) := ⟨rfl, show 0x200 + 1 ≤ 0xFFF by decide⟩

/-- A fetched instruction that ends without a fault, and one that takes a fault. -/
theorem witness_StepRunsTheDecodedInstruction :
    (Fetches (about 0x7101) (.addImm 1 0x01) ∧
      ∃ t, exec (.addImm 1 0x01) { about 0x7101 with pc := (about 0x7101).pc + 2#16 } = .next t ∧ t.fault = none) ∧
    (Fetches (about 0x00EE) (.ret 0x0E) ∧
      ∃ t, exec (.ret 0x0E) { about 0x00EE with pc := (about 0x00EE).pc + 2#16 } = .next t ∧ t.fault ≠ none) :=
  ⟨⟨⟨canFetch_about _, by decide⟩, _, rfl, rfl⟩, ⟨canFetch_about _, by decide⟩, _, rfl, by decide⟩

theorem witness_UnrecognisedOpcodeOnlyTicks : FetchesUnrecognised (about 0x8ABF) :=
  ⟨canFetch_about _, .unrecognised 0x8ABF, by decide⟩

theorem witness_FetchPastTheEndFaults :
    (State.reset.setPc 0xFFF).fault = none ∧ 0xFFF < (State.reset.setPc 0xFFF).pc.toNat + 1 := by decide

theorem witness_FaultedMachineRefusesSteps :
    (run 0x00EE .reset).fault = some (.stackUnderflow 0x00EE 255) ∧
      step (run 0x00EE .reset) = .refused (.stepWhileFaulted (.stackUnderflow 0x00EE 255)) := ⟨rfl, rfl⟩

theorem witness_TickFollowsEveryStepThatDoesNotFault :
    (Fetches (about 0x6A5C) (.ldImm 10 0x5C) ∧
      ∃ u, exec (.ldImm 10 0x5C) { about 0x6A5C with pc := (about 0x6A5C).pc + 2#16 } = .next u ∧ u.fault = none) ∧
    (∃ u, exec (.ret 0x0E) { about 0x00EE with pc := (about 0x00EE).pc + 2#16 } = .next u ∧ u.fault ≠ none) ∧
    FetchesUnrecognised (about 0xF0FF) :=
  ⟨⟨⟨canFetch_about _, by decide⟩, _, rfl, rfl⟩, ⟨_, rfl, by decide⟩, canFetch_about _, .unrecognised 0xF0FF, by decide⟩

theorem witness_PcAfterStepFollowsTheTable :
    (Fetches (about 0x3100) (.seImm 1 0x00) ∧ ∃ t, Steps (about 0x3100) t ∧ t.pc = 0x204#16) ∧
    (FetchesUnrecognised (about 0xF0FF) ∧ ∃ t, Steps (about 0xF0FF) t) :=
  ⟨⟨⟨canFetch_about _, by decide⟩, _, ⟨rfl, rfl⟩, rfl⟩, ⟨canFetch_about _, .unrecognised 0xF0FF, by decide⟩, _, rfl, rfl⟩

theorem witness_RegistersFollowTheReadAndWriteTables :
    (∃ t, Runs (.addReg 1 2) .reset t) ∧ (3 : Reg) ∉ writtenRegs (.addReg 1 2) ∧ (3 : Reg) ∉ readRegs (.addReg 1 2) ∧
      (∃ t, Runs (.ldVxMem 2) .reset t) ∧ (3 : Reg) ∉ writtenRegs (.ldVxMem 2) ∧ (2 : Reg) ∈ writtenRegs (.ldVxMem 2) :=
  ⟨⟨_, rfl, rfl⟩, by decide, by decide, ⟨_, rfl, rfl⟩, by decide, by decide⟩

theorem witness_DisplayIsWrittenOnlyByClearAndBlit :
    ((∃ t, Runs (.jp 0x208) .reset t) ∧ (∀ ign, Instr.jp 0x208 ≠ .cls ign) ∧ ∀ x y n, Instr.jp 0x208 ≠ .drw x y n) ∧
    (HostRequest.load [1] ≠ .reset ∧ HostRequest.load [1] ≠ .step ∧ ∃ t, serve (.load [1]) .reset = .next t) ∧
    2047 < 2048 :=
  ⟨⟨⟨_, rfl, rfl⟩, fun _ h => (by cases h), fun _ _ _ h => (by cases h)⟩,
    ⟨nofun, nofun, _, rfl⟩, by decide⟩

theorem witness_StateIsWrittenOnlyByTheListedInstructions :
    (∃ t, Runs (.sub 1 2) .reset t) ∧ (∀ x, Instr.sub 1 2 ≠ .ldBVx x) ∧ (∀ x, Instr.sub 1 2 ≠ .ldMemVx x) ∧
      (∀ nnn, Instr.sub 1 2 ≠ .ldI nnn) ∧ (∀ x, Instr.sub 1 2 ≠ .addIVx x) ∧ (∀ x, Instr.sub 1 2 ≠ .ldFVx x) ∧
      (∀ nnn, Instr.sub 1 2 ≠ .call nnn) ∧ (∀ ign, Instr.sub 1 2 ≠ .ret ign) ∧ (∀ x, Instr.sub 1 2 ≠ .ldDtVx x) ∧
      ∀ x, Instr.sub 1 2 ≠ .ldStVx x := by
  exact ⟨⟨_, rfl, rfl⟩, nofun, nofun, nofun, nofun, nofun, nofun, nofun, nofun, nofun⟩

/-- One run into each fault an instruction can take. -/
theorem witness_EveryFaultHasItsListedCause :
    (∃ t, exec (.ldBVx 0) (State.reset.setI 0xFFE) = .next t ∧ t.fault = some (.dataBounds 0xF033 0x1000)) ∧
      (∃ t, exec (.call 0x300) { State.reset with sp := 16 } = .next t ∧ t.fault = some (.stackOverflow 0x2300 16)) ∧
      (∃ t, exec (.ret 0x0E) .reset = .next t ∧ t.fault = some (.stackUnderflow 0x00EE 255)) ∧
      (∃ t, exec (.skp 1 9) (regs [(1, 16)] .reset) = .next t ∧ t.fault = some (.keyIndex 0xE19E 16)) ∧
      ∃ t, exec (.drw 0 1 1) (sprite [0xF0] 61 31) = .next t ∧ t.fault = some (.displayBounds 0xD011 2048) :=
  ⟨⟨_, rfl, by decide⟩, ⟨_, rfl, by decide⟩, ⟨_, rfl, by decide⟩, ⟨_, rfl, by decide⟩, _, rfl, by decide⟩

theorem inv_reset : Inv State.reset := ⟨rfl, fun _ => by decide, fun _ => by decide, fun _ => by decide⟩

theorem witness_StepKeepsTheInvariant : Inv State.reset ∧ ∃ t, step State.reset = .next t := ⟨inv_reset, _, rfl⟩

theorem witness_ResetMeetsTheInvariant :
    ({ defaultParams with resetPc := 0x10FE } : Params).resetPc.toNat ≤ 0x10FE ∧ State.reset.params.resetPc.toNat ≤ 0x10FE ∧
      ∃ t, serve .reset State.reset = .next t := ⟨by decide, by decide, _, rfl⟩

theorem witness_StepKeepsTheBuildParameters :
    (∃ t, step State.reset = .next t) ∧ ∃ t, serve .reset (run 0x00EE .reset) = .next t := ⟨⟨_, rfl⟩, _, rfl⟩

theorem witness_EndOfProgramOnlyTicks : ReachedEnd (about 0x1200) := ⟨rfl, by decide, by decide⟩

/-- VM15's setting. -/
theorem witness_StoreOverTheNextInstructionIsFetched :
    let s := (about 0xF155).setI 0x202
    Fetches s (.ldMemVx 1) ∧ 1 ≤ (1 : Reg).val ∧ s.i = s.pc + 2#16 ∧ s.i.toNat + (1 : Reg).val ≤ 0xFFF :=
  ⟨⟨⟨rfl, by decide⟩, by decide⟩, by decide, by decide, by decide⟩

/-- x other than VF, and both flag settings. -/
theorem witness_AluStatements :
    (1 : Reg) ≠ 15 ∧ State.reset.params.shiftFlag = .bit ∧
      ({ State.reset with params := { defaultParams with shiftFlag := .raw } } : State).params.shiftFlag = .raw := by decide

theorem witness_RandomAndConsumesOneByte :
    ({ State.reset with randBytes := [0xAB] } : State).randBytes = 0xAB :: [] ∧ 0x00#8 = 0#8 ∧
      Fetches (about 0xC30F) (.rnd 3 0x0F) := ⟨rfl, rfl, canFetch_about _, by decide⟩

/-- The last block that fits. -/
theorem witness_BlockStatements :
    (State.reset.setI 0xFFD).i.toNat + 2 ≤ 0xFFF ∧ (State.reset.setI 0xFF0).i.toNat + (15 : Reg).val ≤ 0xFFF := by decide

/-- The first that does not, by its last byte and by its first. -/
theorem witness_BlockAccessPastTheEndFaults :
    0xFFF < (State.reset.setI 0xFFE).i.toNat + 2 ∧ 0xFFF < (State.reset.setI 0xFF1).i.toNat + (15 : Reg).val ∧
      0xFFF < (State.reset.setI 0x1000).i.toNat + (0 : Reg).val := by decide

theorem witness_LoadAfterStoreGivesTheRegistersBack :
    ∃ t u w, Runs (.ldMemVx 1) (regs [(0, 5), (1, 6)] (State.reset.setI 0x300)) t ∧ u = regs [(0, 9), (1, 9)] t ∧
      u.i = (State.reset.setI 0x300).i ∧ (∀ a, 0x300 ≤ a → a ≤ 0x300 + 1 → u.byteAt a = t.byteAt a) ∧
      Runs (.ldVxMem 1) u w :=
  ⟨_, _, _, ⟨rfl, rfl⟩, rfl, rfl, fun _ _ _ => rfl, rfl, rfl⟩

/-- VD10: the last cells of the grid, with a row of set pixels; the same with one of those cells on before, for the clause of
VF = 1, and without, for the clause of VF = 0. -/
theorem witness_DrawTogglesExactlyTheCoveredCells :
    (RowsFit (sprite [0xF0] 57 31) 0 1 1 ∧ Covers (sprite [0xF0] 57 31) 0 1 1 2041 ∧
      ∀ k, Covers (sprite [0xF0] 57 31) 0 1 1 k → (sprite [0xF0] 57 31).cell k = false) ∧
    ∃ s, s = (sprite [0xF0] 57 31).setDisp (Cells.toggle Cells.off 2041) ∧ RowsFit s 0 1 1 ∧ Covers s 0 1 1 2041 ∧
      s.cell 2041 = true := by
  have left_half : ∀ c < 8, (0xF0#8).getLsbD (7 - c) = true → c < 4 := by decide
  have fits : RowsFit (sprite [0xF0] 57 31) 0 1 1 := by
    refine ⟨by decide, ?_⟩
    rintro k ⟨r, c, hr, hc, hset, hcell⟩
    obtain rfl : r = 0 := by omega
    have := left_half c hc hset
    have : k = (31 + 0) * 64 + (57 + c) := hcell
    omega
  have covers : Covers (sprite [0xF0] 57 31) 0 1 1 2041 := ⟨0, 0, by decide, by decide, rfl, rfl⟩
  exact ⟨⟨fits, covers, fun k _ => Cells.get_off k⟩, _, rfl, fits, covers, by decide⟩

theorem rowsFit_zero (s : State) (x y : Reg) : RowsFit s x y 0 :=
  ⟨fun _ h => absurd h (Nat.not_lt_zero _), fun _ ⟨_, _, h, _⟩ => absurd h (Nat.not_lt_zero _)⟩

/-- A first row out of memory, and VD8's pixel off the grid with its three predecessors on it. -/
theorem witness_DrawFaultsInDrawingOrder :
    (0 < (1 : Fin 16).val ∧ RowsFit (State.reset.setI 0x1000) 0 1 0 ∧ 0xFFF < (State.reset.setI 0x1000).i.toNat + 0) ∧
    (RowsFit (sprite [0xF0] 61 31) 0 1 0 ∧ (sprite [0xF0] 61 31).i.toNat + 0 ≤ 0xFFF ∧
      PixelSet (sprite [0xF0] 61 31) 0 3 ∧ PixelCell (sprite [0xF0] 61 31) 0 1 0 3 2048 ∧
      ∀ c' k', c' < 3 → PixelSet (sprite [0xF0] 61 31) 0 c' → PixelCell (sprite [0xF0] 61 31) 0 1 0 c' k' → k' < 2048) := by
  refine ⟨⟨by decide, rowsFit_zero _ _ _, by decide⟩, rowsFit_zero _ _ _, by decide, rfl, rfl, ?_⟩
  intro c k hc _ hcell
  have : k = (31 + 0) * 64 + (61 + c) := hcell
  omega

/-- The first draw turns cell 0 on. -/
theorem witness_DrawTwiceRestoresTheDisplay :
    ∃ t u, (0 : Reg) ≠ 15 ∧ (1 : Reg) ≠ 15 ∧ Runs (.drw 0 1 1) (sprite [0xC0] 0 0) t ∧ Runs (.drw 0 1 1) t u ∧
      Covers (sprite [0xC0] 0 0) 0 1 1 0 ∧ (sprite [0xC0] 0 0).cell 0 = false :=
  ⟨_, _, by decide, by decide, ⟨rfl, rfl⟩, ⟨rfl, rfl⟩, ⟨0, 0, by decide, by decide, rfl, rfl⟩, by decide⟩

/-- Every covered cell is on before (the clause of VF = 0). -/
theorem witness_DrawTwiceRestoresTheDisplay_all_on :
    ∃ s t u, s = (sprite [0x80] 0 0).setDisp (Cells.toggle Cells.off 0) ∧ (0 : Reg) ≠ 15 ∧ (1 : Reg) ≠ 15 ∧
      Runs (.drw 0 1 1) s t ∧ Runs (.drw 0 1 1) t u ∧ ∀ k, Covers s 0 1 1 k → s.cell k = true := by
  refine ⟨_, _, _, rfl, by decide, by decide, ⟨rfl, rfl⟩, ⟨rfl, rfl⟩, ?_⟩
  rintro k ⟨r, c, hr, hc, hset, hcell⟩
  have leftmost : ∀ c < 8, (0x80#8).getLsbD (7 - c) = true → c = 0 := by decide
  obtain rfl : r = 0 := by omega
  obtain rfl := leftmost c hc hset
  obtain rfl : k = (0 + 0) * 64 + (0 + 0) := hcell
  decide

/-- VF names the column and the first draw leaves it at the same column. -/
theorem witness_DrawTwiceRestoresTheDisplay_flag_origin :
    ∃ t u, (t.reg 15).toNat % 64 = ((sprite [0x80] 0 0).reg 15).toNat % 64 ∧ (1 : Reg) ≠ 15 ∧
      Runs (.drw 15 1 1) (sprite [0x80] 0 0) t ∧ Runs (.drw 15 1 1) t u :=
  ⟨_, _, by decide, by decide, ⟨rfl, rfl⟩, rfl, rfl⟩

/-- SP at both ends of the slots, and just outside them. -/
theorem witness_StackStatements :
    (({ State.reset with sp := 15 } : State).sp.toNat = (15 : Fin 16).val) ∧ 16 ≤ ({ State.reset with sp := 16 } : State).sp.toNat ∧
      ({ State.reset with sp := 16 } : State).sp.toNat = (15 : Fin 16).val + 1 ∧
      ({ State.reset with sp := 1 } : State).sp.toNat = (0 : Fin 16).val + 1 ∧ State.reset.sp = 0#8 ∧
      17 ≤ ({ State.reset with sp := 17 } : State).sp.toNat := by decide

theorem witness_ReturnUndoesCall :
    ∃ t u, Runs (.call 0x300) { State.reset with sp := 15 } t ∧ u = t.setPc 0x302 ∧ u.stack = t.stack ∧ u.sp = t.sp :=
  ⟨_, _, ⟨rfl, rfl⟩, rfl, rfl, rfl⟩

theorem witness_SkipStatements :
    (regs [(1, 7), (2, 7)] .reset).reg 1 = 7 ∧ (regs [(1, 7), (2, 7)] .reset).reg 1 = (regs [(1, 7), (2, 7)] .reset).reg 2 ∧
      (regs [(1, 7)] .reset).reg 1 ≠ 8 ∧ (regs [(1, 7)] .reset).reg 1 ≠ (regs [(1, 7)] .reset).reg 2 := by decide

/-- Key 15 is a key, down and up; 16 is none. -/
theorem witness_KeySkipsLookAtKeyVx :
    (let s := regs [(1, 15)] { State.reset with keyInputs := [0x8000] };
      (s.reg 1).toNat ≤ 15 ∧ s.keyDown (s.reg 1).toNat = true) ∧
    (let s := regs [(1, 15)] { State.reset with keyInputs := [0x7FFF] };
      (s.reg 1).toNat ≤ 15 ∧ s.keyDown (s.reg 1).toNat = false) ∧
    15 < ((regs [(1, 16)] .reset).reg 1).toNat := by decide

/-- Key 15 alone, key 0 among others, and no key. -/
theorem witness_KeyWaitTakesTheLeastKeyOrRollsBack :
    (let s := { State.reset with keyInputs := [0x8000] };
      15 < 16 ∧ s.keyDown 15 = true ∧ ∀ j < 15, s.keyDown j = false) ∧
    (let s := { State.reset with keyInputs := [0x0209] };
      s.keyDown 0 = true ∧ ∀ j < 0, s.keyDown j = false) ∧
    (let s := { State.reset with keyInputs := [0x0000] };
      ∀ k < 16, s.keyDown k = false) := by decide

theorem witness_TimerMovesAreFollowedByTheTick :
    Fetches (about 0xF307) (.ldVxDt 3) ∧ Fetches (about 0xF315) (.ldDtVx 3) ∧ Fetches (about 0xF318) (.ldStVx 3) :=
  ⟨⟨canFetch_about _, by decide⟩, ⟨canFetch_about _, by decide⟩, canFetch_about _, by decide⟩

end Sys2Proof.Tests
end

/-! ## Proofs of the family 10_state: frames, what an instruction does, and the invariant -/

section

/-! ### Frames of the state's operations -/

namespace Sys2Proof.Claims

open Machine

variable {may : Touch} {s t u : State}

theorem mem_pair_right {x y : Reg} : y ∈ [x, y] := List.mem_cons_of_mem x (List.mem_singleton_self y)

theorem Frame.refl (may : Touch) (s : State) : Frame may s s where
  regs _ _ := rfl
  index _ := rfl
  pc _ := rfl
  slots _ _ := rfl
  sp _ := rfl
  dt _ := rfl
  st _ := rfl
  display _ _ := rfl
  bytes _ _ := rfl
  fault := rfl
  randBytes := rfl
  keyInputs := rfl
  freeIndex := rfl
  boot _ := rfl
  params := rfl

theorem Frame.trans (h : Frame may s t) (h' : Frame may t u) : Frame may s u where
  regs y hy := (h'.regs y hy).trans (h.regs y hy)
  index e := (h'.index e).trans (h.index e)
  pc e := (h'.pc e).trans (h.pc e)
  slots j hj := (h'.slots j hj).trans (h.slots j hj)
  sp e := (h'.sp e).trans (h.sp e)
  dt e := (h'.dt e).trans (h.dt e)
  st e := (h'.st e).trans (h.st e)
  display e k := (h'.display e k).trans (h.display e k)
  bytes a ha := (h'.bytes a ha).trans (h.bytes a ha)
  fault := h'.fault.trans h.fault
  randBytes := h'.randBytes.trans h.randBytes
  keyInputs := h'.keyInputs.trans h.keyInputs
  freeIndex := h'.freeIndex.trans h.freeIndex
  boot e := (h'.boot e).trans (h.boot e)
  params := h'.params.trans h.params

theorem frame_setReg {x : Reg} (b : Byte) (hx : x ∈ may.regs) : Frame may s (s.setReg x b) :=
  { Frame.refl may s with
    regs := fun y hy => by rw [State.reg_setReg, if_neg (ne_of_mem_of_not_mem hx hy).symm] }

theorem frame_setRegFlag {x : Reg} (b flag : Byte) (hx : x ∈ may.regs) (hf : 15 ∈ may.regs) :
    Frame may s (s.setRegFlag x b flag) :=
  (frame_setReg b hx).trans (frame_setReg flag hf)

theorem frame_setI (w : Word) (h : may.index = true) : Frame may s (s.setI w) :=
  { Frame.refl may s with index := fun e => nomatch h.symm.trans e }

theorem frame_setPc (w : Word) (h : may.pc = true) : Frame may s (s.setPc w) :=
  { Frame.refl may s with pc := fun e => nomatch h.symm.trans e }

theorem frame_skipIf (b : Bool) (h : may.pc = true) : Frame may s (s.skipIf b) := by
  cases b
  · exact Frame.refl may s
  · exact frame_setPc _ h

theorem frame_setDt (b : Byte) (h : may.dt = true) : Frame may s (s.setDt b) :=
  { Frame.refl may s with dt := fun e => nomatch h.symm.trans e }

theorem frame_setSt (b : Byte) (h : may.st = true) : Frame may s (s.setSt b) :=
  { Frame.refl may s with st := fun e => nomatch h.symm.trans e }

theorem frame_setDisp (d : DisplayCells) (h : may.display = true) : Frame may s (s.setDisp d) :=
  { Frame.refl may s with display := fun e => nomatch h.symm.trans e }

theorem frame_setSp (b : Byte) (h : may.sp = true) : Frame may s { s with sp := b } :=
  { Frame.refl may s with sp := fun e => nomatch h.symm.trans e }

theorem frame_setSlot {k : Nat} (w : Word) (h : k ∈ may.slots) :
    Frame may s { s with stack := s.stack.setIfInBounds k w } :=
  { Frame.refl may s with
    slots := fun _ hj => Vector.getElem_setIfInBounds_ne _ fun e => hj (e ▸ h) }

theorem frame_writeList {a : Nat} {bytes : List Byte} (hfrom : may.memFrom = a) (hlen : may.memBytes = bytes.length) :
    Frame may s (s.setMem (s.mem.writeList a bytes)) :=
  { Frame.refl may s with
    bytes := fun k hk => by
      rw [State.byteAt_setMem, Memory.read_writeList, dif_neg (by omega)]
      rfl }

theorem frame_setRegsFrom {x : Nat} {bytes : List Byte}
    (h : ∀ y : Reg, x ≤ y.val → y.val - x < bytes.length → y ∈ may.regs) : Frame may s (s.setRegsFrom x bytes) := by
  have hreg : ∀ y, y ∉ may.regs → (s.setRegsFrom x bytes).reg y = s.reg y := fun y hy => by
    rw [State.setRegsFrom_reg, dif_neg fun hb => hy (h y hb.1 hb.2)]
  rw [State.setRegsFrom_eq] at hreg ⊢
  exact { Frame.refl may s with regs := hreg }

/-- A frame that names no slot keeps the whole stack. -/
theorem Frame.stack_eq (h : Frame may s t) (hs : may.slots = []) : t.stack = s.stack :=
  Vector.ext fun j hj => h.slots ⟨j, hj⟩ (by simp [hs])

theorem Frame.byteAt_eq (h : Frame may s t) (hm : may.memBytes = 0) (a : Nat) : t.byteAt a = s.byteAt a :=
  h.bytes a (by omega)

/-- What each instruction may change when it does not fault: the "written by" column of R15, and R16's first table. -/
def touchOf (i : Instr) (s : State) : Touch :=
  match i with
  | .cls _ => { display := true }
  | .ret _ => { pc := true, sp := true }
  | .jp _ => { pc := true }
  | .call _ => { pc := true, sp := true, slots := [s.sp.toNat] }
  | .seImm _ _ => { pc := true }
  | .sneImm _ _ => { pc := true }
  | .seReg _ _ _ => { pc := true }
  | .sneReg _ _ _ => { pc := true }
  | .ldI _ => { index := true }
  | .jpV0 _ => { pc := true }
  | .drw x y n => { regs := writtenRegs (.drw x y n), display := true }
  | .skp _ _ => { pc := true }
  | .sknp _ _ => { pc := true }
  | .ldVxK x => { regs := writtenRegs (.ldVxK x), pc := true }
  | .ldDtVx _ => { dt := true }
  | .ldStVx _ => { st := true }
  | .addIVx _ => { index := true }
  | .ldFVx _ => { index := true }
  | .ldBVx _ => { memFrom := s.dataAddr 0, memBytes := 3 }
  | .ldMemVx x => { memFrom := s.dataAddr 0, memBytes := x.val + 1 }
  | i => { regs := writtenRegs i }

theorem touchOf_regs (i : Instr) (s : State) : (touchOf i s).regs = writtenRegs i := by
  cases i <;> rfl

end Sys2Proof.Claims

/-! ### What an instruction does, said once -/

namespace Sys2Proof.Machine

open Sys2Proof.Claims

/-- The cells DRW addresses, in drawing order (R99). -/
def State.spriteAt (s : State) (x y : Reg) (n : Fin 16) : List Nat :=
  spriteCells s (s.originColumn x) (s.originRow y) (List.range n.val)

/-- What a DRW that does not fault has drawn: the display, and whether a cell that was on was met (R99). -/
def State.drawn (s : State) (x y : Reg) (n : Fin 16) : Blit :=
  (Blit.mk s.disp false).toggleAll (s.spriteAt x y n)

/-- The instruction's pseudocode reaches its end: none of the causes of R112 is met. -/
def Completes (i : Instr) (s : State) : Prop :=
  match i with
  | .ret _ => (s.sp - 1#8).toNat < 16
  | .call _ => s.sp.toNat < 16
  | .skp x _ => (s.reg x).toNat ≤ 15
  | .sknp x _ => (s.reg x).toNat ≤ 15
  | .ldBVx _ => s.i.toNat + 2 ≤ 0xFFF
  | .ldMemVx x => s.i.toNat + x.val ≤ 0xFFF
  | .ldVxMem x => s.i.toNat + x.val ≤ 0xFFF
  | .drw x y n => (∀ r < n.val, s.dataAddr r ≤ 0xFFF) ∧ ∀ k ∈ s.spriteAt x y n, k < 2048
  | _ => True

/-- The state an instruction that completes leaves. It is tied to `exec` by `exec_of_completes` and `runs_iff`. -/
def effect (i : Instr) (s : State) : State :=
  match i with
  | .sys _ => s
  | .cls _ => s.setDisp Cells.off
  | .ret _ => ({ s with sp := s.sp - 1#8 } : State).setPc (s.stack.toList.getD (s.sp - 1#8).toNat 0#16)
  | .jp nnn => s.setPc (addrOperand nnn)
  | .call nnn =>
    ({ s with stack := s.stack.setIfInBounds s.sp.toNat s.pc, sp := s.sp + 1#8 } : State).setPc (addrOperand nnn)
  | .seImm x kk => s.skipIf (s.reg x == kk)
  | .sneImm x kk => s.skipIf (s.reg x != kk)
  | .seReg x y _ => s.skipIf (s.reg x == s.reg y)
  | .sneReg x y _ => s.skipIf (s.reg x != s.reg y)
  | .ldImm x kk => s.setReg x kk
  | .addImm x kk => s.setReg x (s.reg x + kk)
  | .ldReg x y => s.setReg x (s.reg y)
  | .orReg x y => s.setReg x (s.reg x ||| s.reg y)
  | .andReg x y => s.setReg x (s.reg x &&& s.reg y)
  | .xorReg x y => s.setReg x (s.reg x ^^^ s.reg y)
  | .addReg x y => s.setRegFlag x (s.reg x + s.reg y) (carryFlag (s.reg x) (s.reg y))
  | .sub x y => s.setRegFlag x (s.reg x - s.reg y) (notBorrowFlag (s.reg x) (s.reg y))
  | .shr x _ => s.setRegFlag x (s.reg x >>> 1) (shiftRightFlag (s.reg x))
  | .subn x y => s.setRegFlag x (s.reg y - s.reg x) (notBorrowFlag (s.reg y) (s.reg x))
  | .shl x _ => s.setRegFlag x (s.reg x <<< 1) (shiftLeftFlag s.params.shiftFlag (s.reg x))
  | .ldI nnn => s.setI (addrOperand nnn)
  | .jpV0 nnn => s.setPc (s.jumpV0Target nnn)
  | .rnd x kk => s.setReg x (s.randByte &&& kk)
  | .drw x y n => (s.setDisp (s.drawn x y n).disp).setFlag (flagByte (s.drawn x y n).collided)
  | .skp x _ => s.skipIf (s.keyDown (s.reg x).toNat)
  | .sknp x _ => s.skipIf (!s.keyDown (s.reg x).toNat)
  | .ldVxDt x => s.setReg x s.dt
  | .ldVxK x => s.awaitKey x
  | .ldDtVx x => s.setDt (s.reg x)
  | .ldStVx x => s.setSt (s.reg x)
  | .addIVx x => s.setI (s.i + s.regWord x)
  | .ldFVx x => s.setI (s.glyphAddr x)
  | .ldBVx x => s.setMem (s.mem.writeList s.i.toNat (bcdDigits (s.reg x)))
  | .ldMemVx x => s.setMem (s.mem.writeList s.i.toNat (s.regsUpTo x))
  | .ldVxMem x => s.setRegsFrom 0 ((List.range (x.val + 1)).map fun j => s.byteAt (s.i.toNat + j))

/-- An instruction that completes changes what it may change, and nothing else. -/
theorem frame_effect (i : Instr) (s : State) : Frame (touchOf i s) s (effect i s) := by
  cases i with
  | sys nnn => exact Frame.refl _ s
  | jp nnn | jpV0 nnn => exact frame_setPc _ rfl
  | ret ign => exact (frame_setSp _ rfl).trans (frame_setPc _ rfl)
  | call nnn =>
    exact ((frame_setSlot s.pc (List.mem_singleton_self _)).trans (frame_setSp (s.sp + 1#8) rfl)).trans
      (frame_setPc _ rfl)
  | seImm x kk | sneImm x kk | seReg x y ign | sneReg x y ign | skp x ign | sknp x ign => exact frame_skipIf _ rfl
  | ldImm x kk | addImm x kk | rnd x kk | ldVxDt x | ldReg x y | orReg x y | andReg x y | xorReg x y =>
    exact frame_setReg _ (List.mem_singleton_self x)
  | addReg x y | sub x y | shr x y | subn x y | shl x y =>
    exact frame_setRegFlag _ _ List.mem_cons_self mem_pair_right
  | ldI nnn | addIVx x | ldFVx x => exact frame_setI _ rfl
  | cls ign => exact frame_setDisp _ rfl
  | drw x y n => exact (frame_setDisp _ rfl).trans (frame_setReg _ (List.mem_singleton_self 15))
  | ldVxK x =>
    simp only [effect, State.awaitKey]
    split
    · exact frame_setReg _ (List.mem_singleton_self x)
    · exact frame_setPc _ rfl
  | ldDtVx x => exact frame_setDt _ rfl
  | ldStVx x => exact frame_setSt _ rfl
  | ldBVx x => exact frame_writeList rfl rfl
  | ldMemVx x => exact frame_writeList rfl (s.regsUpTo_length x).symm
  | ldVxMem x =>
    refine frame_setRegsFrom fun y _ hy => ?_
    simp only [List.length_map, List.length_range] at hy
    have : y ≤ x := Fin.le_def.2 (by omega)
    simpa [touchOf, writtenRegs] using this

theorem effect_fault (i : Instr) (s : State) : (effect i s).fault = s.fault := (frame_effect i s).fault

/-- The popped slot of R21's table is the one RET reads. -/
theorem State.getD_stack (s : State) {k : Nat} (h : k < 16) : s.stack.toList.getD k 0#16 = s.stack[k] := by
  simp [h]

theorem State.stack_setIfInBounds (s : State) {k : Nat} (w : Word) (h : k < 16) :
    s.stack.setIfInBounds k w = s.stack.set k w := by
  refine Vector.ext fun j hj => ?_
  simp [Vector.getElem_set, Vector.getElem_setIfInBounds]

/-- An instruction that meets no cause of a fault answers its effect. -/
theorem exec_of_completes {i : Instr} {s : State} (h : Completes i s) : exec i s = .next (effect i s) := by
  cases i with
  | ret ign => rw [exec_ret_ok ign h, effect, s.getD_stack h]
  | call nnn => rw [exec_call_ok nnn h, effect, s.stack_setIfInBounds _ h]
  | skp x ign => exact exec_skp_ok ign h
  | sknp x ign => exact exec_sknp_ok ign h
  | ldBVx x => exact exec_ldBVx_ok x h
  | ldMemVx x => exact exec_ldMemVx_ok h
  | ldVxMem x => exact exec_ldVxMem_ok h
  | drw x y n =>
    obtain ⟨hread, hgrid⟩ := h
    have hrows := Blit.rows_ok ⟨s.disp, false⟩ s (encode (.drw x y n)) (s.originColumn x) (s.originRow y)
      (List.range n.val) (fun r hr => hread r (List.mem_range.1 hr)) hgrid
    simp only [exec, execDrw, hrows, settle_ok]
    rfl
  | _ => rfl

/-- An instruction that meets a cause of a fault takes a fault. -/
theorem exec_of_not_completes {i : Instr} {s : State} (h : ¬ Completes i s) :
    ∃ f, exec i s = .next (s.raise f) := by
  cases i with
  | ret ign => exact ⟨_, exec_ret_fault ign h⟩
  | call nnn => exact ⟨_, exec_call_fault nnn h⟩
  | skp x ign => exact ⟨_, exec_skp_fault ign h⟩
  | sknp x ign => exact ⟨_, exec_sknp_fault ign h⟩
  | ldBVx x => exact ⟨_, exec_ldBVx_fault x h⟩
  | ldMemVx x => exact ⟨_, exec_ldMemVx_fault h⟩
  | ldVxMem x => exact ⟨_, exec_ldVxMem_fault h⟩
  | drw x y n =>
    obtain ⟨hread, hgrid, -⟩ | ⟨f, hd, -⟩ := exec_drw_cases x y n s
    · exact absurd ⟨hread, hgrid⟩ h
    · exact ⟨f, hd⟩
  | _ => exact absurd trivial h

/-- Everything an instruction that runs without a fault has done. -/
theorem runs_iff {i : Instr} {s t : State} : Runs i s t ↔ s.fault = none ∧ Completes i s ∧ t = effect i s := by
  constructor
  · rintro ⟨he, hf⟩
    by_cases hc : Completes i s
    · rw [exec_of_completes hc, Host.Outcome.next.injEq] at he
      subst he
      exact ⟨effect_fault i s ▸ hf, hc, rfl⟩
    · obtain ⟨f, hr⟩ := exec_of_not_completes hc
      rw [hr, Host.Outcome.next.injEq] at he
      subst he
      cases hf
  · rintro ⟨hf, hc, rfl⟩
    exact ⟨exec_of_completes hc, (effect_fault i s).trans hf⟩

end Sys2Proof.Machine

end

/-! ### Fault-free steps -/

section

namespace Sys2Proof.Machine

open Sys2Proof.Claims

/-- A step that runs an instruction to its end is the instruction's effect on the advanced state, then the tick (R56). -/
theorem steps_effect {s t : State} {i : Instr} (hi : Fetches s i) (h : Steps s t) :
    t = (effect i s.advancePc).tick.countStep := by
  obtain ⟨⟨hf, hpc⟩, hd⟩ := hi
  obtain ⟨hstep, ht⟩ := h
  obtain ⟨u, hu⟩ := exec_next i s.advancePc
  rw [step_exec hf hpc hd hu, Host.Outcome.next.injEq] at hstep
  subst hstep
  cases huf : u.fault with
  | some f => simp [State.endStep_fault huf, huf] at ht
  | none =>
    obtain ⟨-, -, rfl⟩ := runs_iff.1 ⟨hu, huf⟩
    exact State.endStep_ok huf

/-- No key is down exactly where the levels are all 0 (R29). -/
theorem State.lowestKeyDown_eq_none_iff (s : State) : s.lowestKeyDown = none ↔ s.keys = 0#16 := by
  rw [State.lowestKeyDown_none]
  constructor
  · intro h
    exact BitVec.eq_of_getLsbD_eq fun k hk => by simpa [State.keyDown] using h k hk
  · intro h k _
    simp [State.keyDown, h]

@[simp] theorem State.keys_advancePc (s : State) : s.advancePc.keys = s.keys := rfl

theorem State.skipIf_pc (s : State) (b : Bool) : (s.skipIf b).pc = if b then s.pc + 2#16 else s.pc := by
  cases b <;> rfl

theorem State.awaitKey_pc (s : State) (x : Reg) :
    (s.awaitKey x).pc = if s.keys = 0#16 then s.pc - 2#16 else s.pc := by
  unfold State.awaitKey
  split
  · next k hk =>
    have : s.keys ≠ 0#16 := fun e => by simp [s.lowestKeyDown_eq_none_iff.2 e] at hk
    simp [this]
  · next hk => simp [s.lowestKeyDown_eq_none_iff.1 hk]

/-- PC after an instruction whose address is `s.pc` is the one of R21's table. -/
theorem effect_pc (i : Instr) (s : State) : (effect i s.advancePc).pc = pcAfter s i := by
  have skip : ∀ b : Bool, (s.advancePc.skipIf b).pc = if b then s.pc + 4#16 else s.pc + 2#16 := fun b => by
    rw [State.skipIf_pc, State.advancePc_pc, BitVec.add_assoc]
    rfl
  have stay (h : (touchOf i s.advancePc).pc = false) : (effect i s.advancePc).pc = s.pc + 2#16 :=
    (frame_effect i s.advancePc).pc h
  cases i with
  | jp nnn | call nnn | ret ign | jpV0 nnn => rfl
  | seImm x kk | sneImm x kk | seReg x y ign | sneReg x y ign => simp [effect, skip, pcAfter]
  | skp x ign | sknp x ign => simp [effect, skip, pcAfter, State.keyDown]
  | ldVxK x =>
    have back : s.pc + 2#16 - 2#16 = s.pc := BitVec.add_sub_cancel _ _
    rw [effect, State.awaitKey_pc, State.advancePc_pc, back]
    rfl
  | _ => exact stay rfl

end Sys2Proof.Machine

end

/-! ### PC at the end of a step (R21) -/

section

open Sys2Proof Sys2Proof.Machine Sys2Proof.Claims

/-- Settles O16: a step that does not fault is the instruction's effect and the tick, and PC after the effect is the
table's. -/
theorem pcAfterStepFollowsTheTable : Obligations.PcAfterStepFollowsTheTable := by
  unfold Obligations.PcAfterStepFollowsTheTable
  constructor
  · intro s t i hi h
    rw [steps_effect hi h, State.countStep_pc, State.tick_pc, effect_pc]
  · rintro s t ⟨⟨hf, hpc⟩, e, hd⟩ ⟨hstep, -⟩
    rw [step_unrecognised hf hpc hd, Host.Outcome.next.injEq] at hstep
    subst hstep
    simp

end

/-! ### Who writes what (R15, R28, R31, R35) -/

section

namespace Sys2Proof.Claims

open Machine

variable {i : Instr} {s : State}

theorem frame_of_runs {t : State} (h : Runs i s t) : Frame (touchOf i s) s t := by
  obtain ⟨-, -, rfl⟩ := runs_iff.1 h
  exact frame_effect i s

theorem touchOf_memBytes (hb : ∀ x, i ≠ .ldBVx x) (hm : ∀ x, i ≠ .ldMemVx x) : (touchOf i s).memBytes = 0 := by
  cases i with
  | ldBVx x => exact absurd rfl (hb x)
  | ldMemVx x => exact absurd rfl (hm x)
  | _ => rfl

theorem touchOf_index (hi : ∀ nnn, i ≠ .ldI nnn) (ha : ∀ x, i ≠ .addIVx x) (hf : ∀ x, i ≠ .ldFVx x) :
    (touchOf i s).index = false := by
  cases i with
  | ldI nnn => exact absurd rfl (hi nnn)
  | addIVx x => exact absurd rfl (ha x)
  | ldFVx x => exact absurd rfl (hf x)
  | _ => rfl

theorem touchOf_slots (hc : ∀ nnn, i ≠ .call nnn) : (touchOf i s).slots = [] := by
  cases i with
  | call nnn => exact absurd rfl (hc nnn)
  | _ => rfl

theorem touchOf_sp (hc : ∀ nnn, i ≠ .call nnn) (hr : ∀ ign, i ≠ .ret ign) : (touchOf i s).sp = false := by
  cases i with
  | call nnn => exact absurd rfl (hc nnn)
  | ret ign => exact absurd rfl (hr ign)
  | _ => rfl

theorem touchOf_dt (hd : ∀ x, i ≠ .ldDtVx x) : (touchOf i s).dt = false := by
  cases i with
  | ldDtVx x => exact absurd rfl (hd x)
  | _ => rfl

theorem touchOf_st (hd : ∀ x, i ≠ .ldStVx x) : (touchOf i s).st = false := by
  cases i with
  | ldStVx x => exact absurd rfl (hd x)
  | _ => rfl

theorem touchOf_display (hc : ∀ ign, i ≠ .cls ign) (hd : ∀ x y n, i ≠ .drw x y n) :
    (touchOf i s).display = false := by
  cases i with
  | cls ign => exact absurd rfl (hc ign)
  | drw x y n => exact absurd rfl (hd x y n)
  | _ => rfl

/-- A host request other than reset and step leaves the display as it is (R28). -/
theorem serve_disp {q : HostRequest} {t : State} (hr : q ≠ .reset) (hs : q ≠ .step) (h : serve q s = .next t) :
    t.disp = s.disp := by
  cases q with
  | reset => exact absurd rfl hr
  | step => exact absurd rfl hs
  | load image =>
    obtain ⟨-, -, rfl⟩ := hostLoad_cases h
    rfl
  | keys levels | rand b => cases h; rfl

/-- No host request changes the parameters (R31). -/
theorem serve_params {q : HostRequest} {t : State} (h : serve q s = .next t) : t.params = s.params := by
  cases q with
  | load image =>
    obtain ⟨-, -, rfl⟩ := hostLoad_cases h
    rfl
  | step =>
    obtain ⟨-, -, -, -, hp⟩ := step_own_fields h
    exact hp
  | reset | keys levels | rand b => cases h; rfl

end Sys2Proof.Claims

open Sys2Proof Sys2Proof.Machine Sys2Proof.Claims

/-- Settles O18, from the frame of each instruction and the case of each host request. -/
theorem displayIsWrittenOnlyByClearAndBlit : Obligations.DisplayIsWrittenOnlyByClearAndBlit := by
  unfold Obligations.DisplayIsWrittenOnlyByClearAndBlit
  refine ⟨fun i s t h hc hd => (frame_of_runs h).display (touchOf_display hc hd), ?_, ?_⟩
  · intro q s t hr hs h k
    rw [State.cell, State.cell, serve_disp hr hs h]
  · intro s k hk
    simp [State.portDisp, hk]

/-- Settles O19, from the frame of each instruction. -/
theorem stateIsWrittenOnlyByTheListedInstructions : Obligations.StateIsWrittenOnlyByTheListedInstructions := by
  unfold Obligations.StateIsWrittenOnlyByTheListedInstructions
  intro i s t h
  have frame := frame_of_runs h
  exact ⟨fun hb hm => frame.byteAt_eq (touchOf_memBytes hb hm), fun hi ha hf => frame.index (touchOf_index hi ha hf),
    fun hc => frame.stack_eq (touchOf_slots hc), fun hc hr => frame.sp (touchOf_sp hc hr),
    fun hd => frame.dt (touchOf_dt hd), fun hs => frame.st (touchOf_st hs), frame.params, frame.keyInputs⟩

/-- Settles O23, from what every answered request does to the model's own fields. -/
theorem stepKeepsTheBuildParameters : Obligations.StepKeepsTheBuildParameters := by
  unfold Obligations.StepKeepsTheBuildParameters
  refine ⟨fun q s t => serve_params, fun s t h => ?_⟩
  obtain ⟨-, -, hindex, hboot, hparams⟩ := step_own_fields h
  exact ⟨hparams, hindex, hboot⟩

end

/-! ### The invariant (R22, R24, R34) -/

section

namespace Sys2Proof.Machine

open Sys2Proof.Claims

variable {i : Instr} {s : State}

/-- Memory keeps its canonical form: the two stores stay inside the address space, the others leave it alone. -/
theorem effect_wf (hc : Completes i s) (h : s.mem.wf = true) : (effect i s).mem.wf = true := by
  cases i with
  | ldBVx x =>
    have hin : s.i.toNat + 2 ≤ 0xFFF := hc
    exact Memory.wf_writeList (by rw [bcdDigits_length, Config.memSize]; omega) h
  | ldMemVx x =>
    have hin : s.i.toNat + x.val ≤ 0xFFF := hc
    exact Memory.wf_writeList (by rw [State.regsUpTo_length, Config.memSize]; omega) h
  | ldVxMem x => rw [effect, State.setRegsFrom_eq]; exact h
  | seImm x kk | sneImm x kk | seReg x y ign | sneReg x y ign | skp x ign | sknp x ign =>
    rw [effect, State.skipIf]; split <;> exact h
  | ldVxK x => rw [effect, State.awaitKey]; split <;> exact h
  | _ => exact h

/-- SP counts at most the 16 slots: a call needs a free one, a return one in use (R24). -/
theorem effect_sp_le (hc : Completes i s) (h : s.sp.toNat ≤ 16) : (effect i s).sp.toNat ≤ 16 := by
  have frame := frame_effect i s
  cases i with
  | call nnn =>
    have hs : s.sp.toNat < 16 := hc
    have : (effect (.call nnn) s).sp = s.sp + 1#8 := rfl
    rw [this, BitVec.toNat_add]
    exact Nat.le_trans (Nat.mod_le _ _) hs
  | ret ign => exact Nat.le_of_lt hc
  | _ => exact frame.sp rfl ▸ h

/-- Only a call writes a slot, and it writes the advanced PC (R71). -/
theorem effect_slots_le {bound : Nat} (hpc : s.pc.toNat ≤ bound) (h : ∀ j : Fin 16, (s.stack[j.val]).toNat ≤ bound)
    (j : Fin 16) : ((effect i s).stack[j.val]).toNat ≤ bound := by
  have frame := frame_effect i s
  cases i with
  | call nnn =>
    have : (effect (.call nnn) s).stack = s.stack.setIfInBounds s.sp.toNat s.pc := rfl
    simp only [this, Vector.getElem_setIfInBounds]
    split
    · exact hpc
    · exact h j
  | _ => exact frame.slots j List.not_mem_nil ▸ h j

/-- PC of R21's table is at most 0x10FE: 0xFFF + 0xFF for JP V0, a return address, or an address near the fetch (R22). -/
theorem pcAfter_le (hpc : s.pc.toNat ≤ 0xFFE) (h : ∀ j : Fin 16, (s.stack[j.val]).toNat ≤ 0x1000)
    (hc : Completes i s) : (pcAfter s i).toNat ≤ 0x10FE := by
  have operand (nnn : Addr12) : (nnn.zeroExtend 16).toNat ≤ 0xFFF := by simp; omega
  have next2 : (s.pc + 2#16).toNat ≤ 0x10FE := by bv_omega
  have next4 : (s.pc + 4#16).toNat ≤ 0x10FE := by bv_omega
  have either (p : Prop) [Decidable p] : (if p then s.pc + 4#16 else s.pc + 2#16).toNat ≤ 0x10FE := by
    split
    · exact next4
    · exact next2
  cases i with
  | jp nnn | call nnn => exact Nat.le_trans (operand nnn) (by decide)
  | ret ign =>
    have hs : (s.sp - 1#8).toNat < 16 := hc
    rw [pcAfter, s.getD_stack hs]
    exact Nat.le_trans (h ⟨_, hs⟩) (by decide)
  | jpV0 nnn =>
    have hv : ((s.reg 0).zeroExtend 16).toNat ≤ 0xFF := by simp; omega
    have hn := operand nnn
    simp only [pcAfter, BitVec.toNat_add]
    omega
  | seImm x kk | sneImm x kk | seReg x y ign | sneReg x y ign | skp x ign | sknp x ign => exact either _
  | ldVxK x =>
    simp only [pcAfter]
    split
    · omega
    · exact next2
  | _ => exact next2

end Sys2Proof.Machine

namespace Sys2Proof

open Machine Claims

variable {s : State}

theorem inv_countStep (h : Inv s) : Inv s.countStep := ⟨h.memory, h.stackPointer, h.returnAddresses, h.programCounter⟩

theorem inv_tick (h : Inv s) : Inv s.tick := ⟨h.memory, h.stackPointer, h.returnAddresses, h.programCounter⟩

/-- A fault leaves only the canonical form to keep (R114). -/
theorem inv_raise (s : State) (f : Fault) : Inv (s.raise f) :=
  ⟨s.wf_raise f, nofun, nofun, nofun⟩

/-- The advance of a fetch inside memory (R56). -/
theorem inv_advancePc (h : Inv s) (hpc : s.pc.toNat ≤ 0xFFE) : Inv s.advancePc :=
  ⟨h.memory, h.stackPointer, h.returnAddresses, fun _ => by rw [State.advancePc_pc]; bv_omega⟩

/-- An instruction that completes keeps the invariant, run at an address that can be fetched. -/
theorem inv_effect {i : Instr} (h : Inv s) (hsafe : Safe s) (hpc : s.pc.toNat ≤ 0xFFE)
    (hc : Completes i s.advancePc) : Inv (effect i s.advancePc) where
  memory := effect_wf hc h.memory
  stackPointer _ := effect_sp_le hc (h.stackPointer hsafe)
  returnAddresses _ := effect_slots_le (by rw [State.advancePc_pc]; bv_omega) (h.returnAddresses hsafe)
  programCounter _ := by
    rw [effect_pc]
    exact pcAfter_le hpc (h.returnAddresses hsafe) hc

end Sys2Proof

open Sys2Proof Sys2Proof.Machine Sys2Proof.Claims

/-- Settles O21: whatever the step did, it raised a fault, only advanced PC, or ran an instruction that completed. -/
theorem stepKeepsTheInvariant : Obligations.StepKeepsTheInvariant := by
  unfold Obligations.StepKeepsTheInvariant
  intro s t h hstep
  obtain ⟨hf, ⟨-, rfl⟩ | ⟨hpc, ⟨e, -, rfl⟩ | ⟨i, u, -, he, rfl⟩⟩⟩ := step_cases hstep
  · exact inv_countStep (inv_raise s _)
  · exact inv_countStep (inv_tick (inv_advancePc h (by omega)))
  · by_cases hc : Completes i s.advancePc
    · rw [exec_of_completes hc, Host.Outcome.next.injEq] at he
      subst he
      rw [State.endStep_ok ((effect_fault i s.advancePc).trans hf)]
      exact inv_countStep (inv_tick (inv_effect h hf (by omega) hc))
    · obtain ⟨f, hr⟩ := exec_of_not_completes hc
      rw [hr, Host.Outcome.next.injEq] at he
      subst he
      rw [State.endStep_fault (State.raise_fault _ f)]
      exact inv_countStep (inv_raise _ f)

end

/-! ### Noninterference of the registers (R16) -/

section

namespace Sys2Proof.Machine

open Sys2Proof.Claims

namespace State

variable (s : State) (y : Reg) (b : Byte)

theorem setRegFlag_setReg {x : Reg} (c flag : Byte) (hx : x ≠ y) (hf : 15 ≠ y) :
    (s.setReg y b).setRegFlag x c flag = (s.setRegFlag x c flag).setReg y b := by
  rw [setRegFlag, s.setReg_comm c b hx]
  exact setReg_comm _ flag b hf

theorem skipIf_setReg (p : Bool) : (s.setReg y b).skipIf p = (s.skipIf p).setReg y b := by
  cases p <;> rfl

theorem awaitKey_setReg {x : Reg} (hx : x ≠ y) : (s.setReg y b).awaitKey x = (s.awaitKey x).setReg y b := by
  have hk : (s.setReg y b).lowestKeyDown = s.lowestKeyDown := rfl
  rw [awaitKey, awaitKey, hk]
  split
  · exact s.setReg_comm _ b hx
  · rfl

theorem setRegsFrom_setReg {x : Nat} {bytes : List Byte} (h : ∀ k, x ≤ k → k - x < bytes.length → k ≠ y.val) :
    (s.setReg y b).setRegsFrom x bytes = (s.setRegsFrom x bytes).setReg y b := by
  induction bytes generalizing s x with
  | nil => rfl
  | cons c rest ih =>
    rw [setRegsFrom, setRegsFrom]
    split
    · next hx =>
      have hne : (⟨x, hx⟩ : Reg) ≠ y := fun e => h x le_rfl (by simp) (congrArg Fin.val e)
      rw [s.setReg_comm c b hne]
      refine ih _ fun k hk hlen => h k (by omega) ?_
      rw [List.length_cons]
      omega
    · rfl

theorem regsUpTo_setReg {x : Reg} (hy : ¬ y ≤ x) : (s.setReg y b).regsUpTo x = s.regsUpTo x := by
  refine List.ext_getElem (by simp) fun j h h' => ?_
  rw [regsUpTo_length] at h
  have hne : (⟨j, by omega⟩ : Reg) ≠ y := fun e => hy (by rw [← e, Fin.le_def]; exact Nat.le_of_lt_succ h)
  rw [regsUpTo_getElem, regsUpTo_getElem, reg_setReg, if_neg hne]

theorem spriteAt_setReg {x z : Reg} (n : Fin 16) (hx : (s.setReg y b).reg x = s.reg x)
    (hz : (s.setReg y b).reg z = s.reg z) : (s.setReg y b).spriteAt x z n = s.spriteAt x z n := by
  rw [spriteAt, originColumn, originRow, hx, hz]
  rfl

theorem drawn_setReg {x z : Reg} (n : Fin 16) (hx : (s.setReg y b).reg x = s.reg x)
    (hz : (s.setReg y b).reg z = s.reg z) : (s.setReg y b).drawn x z n = s.drawn x z n := by
  rw [drawn, s.spriteAt_setReg y b n hx hz]
  rfl

end State

variable {i : Instr} {s : State} {y : Reg}

theorem reg_setReg_of_mem {x : Reg} {l : List Reg} (s : State) (b : Byte) (hx : x ∈ l) (hy : y ∉ l) :
    (s.setReg y b).reg x = s.reg x := by
  rw [State.reg_setReg, if_neg (ne_of_mem_of_not_mem hx hy)]

/-- A register an instruction does not read does not decide whether it faults. -/
theorem completes_setReg (b : Byte) (hr : y ∉ readRegs i) (hc : Completes i s) : Completes i (s.setReg y b) := by
  have read {x : Reg} (hx : x ∈ readRegs i) : (s.setReg y b).reg x = s.reg x := reg_setReg_of_mem s b hx hr
  cases i with
  | skp x ign | sknp x ign =>
    rw [Completes, read (List.mem_singleton_self x)]
    exact hc
  | drw x z n =>
    have hx : (s.setReg y b).reg x = s.reg x := read List.mem_cons_self
    have hz : (s.setReg y b).reg z = s.reg z := read mem_pair_right
    rw [Completes, s.spriteAt_setReg y b n hx hz]
    exact hc
  | _ => exact hc

/-- A register an instruction neither reads nor writes has no influence on its effect. -/
theorem effect_setReg (b : Byte) (hw : y ∉ writtenRegs i) (hr : y ∉ readRegs i) :
    effect i (s.setReg y b) = (effect i s).setReg y b := by
  have read {x : Reg} (hx : x ∈ readRegs i) : (s.setReg y b).reg x = s.reg x := reg_setReg_of_mem s b hx hr
  have write {x : Reg} (hx : x ∈ writtenRegs i) : x ≠ y := ne_of_mem_of_not_mem hx hw
  cases i with
  | sys nnn | cls ign | ret ign | jp nnn | call nnn | ldI nnn => rfl
  | seImm x kk | sneImm x kk | skp x ign | sknp x ign =>
    rw [effect, read (List.mem_singleton_self x)]
    exact s.skipIf_setReg y b _
  | seReg x z ign | sneReg x z ign =>
    rw [effect, read List.mem_cons_self, read mem_pair_right]
    exact s.skipIf_setReg y b _
  | ldImm x kk | rnd x kk | ldVxDt x => exact s.setReg_comm _ b (write (List.mem_singleton_self x))
  | addImm x kk =>
    rw [effect, read (List.mem_singleton_self x)]
    exact s.setReg_comm _ b (write (List.mem_singleton_self x))
  | ldReg x z =>
    rw [effect, read (List.mem_singleton_self z)]
    exact s.setReg_comm _ b (write (List.mem_singleton_self x))
  | orReg x z | andReg x z | xorReg x z =>
    rw [effect, read List.mem_cons_self, read mem_pair_right]
    exact s.setReg_comm _ b (write (List.mem_singleton_self x))
  | addReg x z | sub x z | subn x z =>
    rw [effect, read List.mem_cons_self, read mem_pair_right]
    exact s.setRegFlag_setReg y b _ _ (write List.mem_cons_self) (write mem_pair_right)
  | shr x z | shl x z =>
    rw [effect, read (List.mem_singleton_self x)]
    exact s.setRegFlag_setReg y b _ _ (write List.mem_cons_self) (write mem_pair_right)
  | jpV0 nnn =>
    rw [effect, State.jumpV0Target, State.regWord, read (List.mem_singleton_self 0)]
    rfl
  | drw x z n =>
    have hx : (s.setReg y b).reg x = s.reg x := read List.mem_cons_self
    have hz : (s.setReg y b).reg z = s.reg z := read mem_pair_right
    rw [effect, s.drawn_setReg y b n hx hz]
    exact (s.setDisp (s.drawn x z n).disp).setReg_comm _ b (write (List.mem_singleton_self 15))
  | ldVxK x => exact s.awaitKey_setReg y b (write (List.mem_singleton_self x))
  | ldDtVx x | ldStVx x | ldBVx x =>
    rw [effect, read (List.mem_singleton_self x)]
    rfl
  | addIVx x =>
    rw [effect, State.regWord, read (List.mem_singleton_self x)]
    rfl
  | ldFVx x =>
    rw [effect, State.glyphAddr, read (List.mem_singleton_self x)]
    rfl
  | ldMemVx x =>
    rw [effect, s.regsUpTo_setReg y b (by simpa [readRegs] using hr)]
    rfl
  | ldVxMem x =>
    have hy : x.val < y.val := by simpa [writtenRegs] using hw
    refine s.setRegsFrom_setReg y b fun k _ hk => ?_
    rw [List.length_map, List.length_range] at hk
    omega

end Sys2Proof.Machine

end

section

open Sys2Proof Sys2Proof.Machine Sys2Proof.Claims

/-- Settles O17: the frame of each instruction, and that its effect commutes with a write to a register outside both of
its rows. -/
theorem registersFollowTheReadAndWriteTables : Obligations.RegistersFollowTheReadAndWriteTables := by
  unfold Obligations.RegistersFollowTheReadAndWriteTables
  refine ⟨fun i s t h y hy => (frame_of_runs h).regs y (touchOf_regs i s ▸ hy), fun i s t y b h hw hr => ?_⟩
  obtain ⟨-, hc, rfl⟩ := runs_iff.1 h
  rw [exec_of_completes (completes_setReg b hr hc), effect_setReg b hw hr]

end

/-! ## Proofs of the family 20_memory: fetching, register blocks and their bounds -/

/-! ### Register blocks and a step that completes -/

section

namespace Sys2Proof.Machine

open Sys2Proof.Claims

/-- LD [I],Vx leaves Vy, for y up to x, at I + y (R95). -/
theorem byteAt_effect_ldMemVx {x y : Reg} (s : State) (hy : y ≤ x) :
    (effect (.ldMemVx x) s).byteAt (s.i.toNat + y.val) = s.reg y := by
  simp [effect, Memory.read_writeList, State.regsUpTo_getElem, not_lt.2 hy]

/-- LD Vx,[I] loads Vy, for y up to x, with the byte at I + y (R96). -/
theorem reg_effect_ldVxMem {x y : Reg} (s : State) (hy : y ≤ x) :
    (effect (.ldVxMem x) s).reg y = s.byteAt (s.i.toNat + y.val) := by
  have hlen : y.val < x.val + 1 := Nat.lt_succ_of_le hy
  simp [effect, State.setRegsFrom_reg, hlen]

/-- LD Vx,[I] keeps the registers above x (R96). -/
theorem reg_effect_ldVxMem_above {x y : Reg} (s : State) (hy : x < y) : (effect (.ldVxMem x) s).reg y = s.reg y :=
  (frame_effect (.ldVxMem x) s).regs y (by simpa [touchOf, writtenRegs] using hy)

/-- The step of an instruction that meets no cause of a fault is its effect on the advanced state, then the tick (R56). -/
theorem step_of_completes {s : State} {i : Instr} (hi : Fetches s i) (hc : Completes i s.advancePc) :
    step s = .next (effect i s.advancePc).tick.countStep := by
  obtain ⟨⟨hf, hpc⟩, hd⟩ := hi
  rw [step_exec hf hpc hd (exec_of_completes hc), State.endStep_ok ((effect_fault i s.advancePc).trans hf)]

end Sys2Proof.Machine

end

section

open Sys2Proof Sys2Proof.Machine Sys2Proof.Claims

/-- Settles O13: the fetch is out of bounds, and the end of the step keeps the record. -/
theorem fetchPastTheEndFaults : Obligations.FetchPastTheEndFaults := by
  unfold Obligations.FetchPastTheEndFaults
  exact fun s hf hpc => ⟨_, step_fetchBounds hf (Nat.not_le.2 hpc), rfl⟩

/-- Settles O25: the step completes, PC is then I, and the two bytes there are the block's first two. -/
theorem storeOverTheNextInstructionIsFetched : Obligations.StoreOverTheNextInstructionIsFetched := by
  unfold Obligations.StoreOverTheNextInstructionIsFetched
  intro s x hi hx hI hin
  have hpc : (effect (.ldMemVx x) s.advancePc).pc = s.i := (effect_pc _ s).trans hI.symm
  have hfault : (effect (.ldMemVx x) s.advancePc).fault = none := (effect_fault _ _).trans hi.1.1
  have h0 : (effect (.ldMemVx x) s.advancePc).byteAt s.i.toNat = s.reg 0 :=
    byteAt_effect_ldMemVx (y := 0) s.advancePc (Fin.zero_le x)
  have h1 : (effect (.ldMemVx x) s.advancePc).byteAt (s.i.toNat + 1) = s.reg 1 :=
    byteAt_effect_ldMemVx (y := 1) s.advancePc (Fin.le_def.2 hx)
  refine ⟨_, step_of_completes hi hin, hfault, hpc.trans hI, ?_⟩
  simp only [opcodeAt, State.countStep_pc, State.tick_pc, State.byteAt_countStep, State.byteAt_tick, hpc, h0, h1]

/-- Settles O40: each block access whose last address is out of bounds reports the lowest one that is. -/
theorem blockAccessPastTheEndFaults : Obligations.BlockAccessPastTheEndFaults := by
  unfold Obligations.BlockAccessPastTheEndFaults
  exact fun x s => ⟨fun h => ⟨_, exec_ldBVx_fault x (Nat.not_le.2 h), rfl⟩,
    fun h => ⟨_, exec_ldMemVx_fault (Nat.not_le.2 h), rfl⟩, fun h => ⟨_, exec_ldVxMem_fault (Nat.not_le.2 h), rfl⟩⟩

/-- Settles O41: a register up to x is loaded from the byte its stored value stands in. -/
theorem loadAfterStoreGivesTheRegistersBack : Obligations.LoadAfterStoreGivesTheRegistersBack := by
  unfold Obligations.LoadAfterStoreGivesTheRegistersBack
  intro x s t u w hstore hI hbytes hload y
  obtain ⟨-, -, rfl⟩ := runs_iff.1 hstore
  obtain ⟨-, -, rfl⟩ := runs_iff.1 hload
  refine ⟨fun hy => ?_, reg_effect_ldVxMem_above u⟩
  calc (effect (.ldVxMem x) u).reg y
      = u.byteAt (s.i.toNat + y.val) := hI ▸ reg_effect_ldVxMem u hy
    _ = (effect (.ldMemVx x) s).byteAt (s.i.toNat + y.val) :=
        hbytes _ (Nat.le_add_right _ _) (Nat.add_le_add_left hy _)
    _ = s.reg y := byteAt_effect_ldMemVx s hy

end

/-! ## Proofs of the family 30_encoding: the decoder, the encoder and the step around them -/

/-! ### Decoding an encoded instruction (R54, R57-R63) -/

section

namespace Sys2Proof

open Laws

/-- The two bytes of an opcode in memory make the opcode again (R40). -/
theorem wordOfBytes_bytesOfWord (op : Word) : wordOfBytes (bytesOfWord op).1 (bytesOfWord op).2 = op :=
  (extract_append_extract op 0 8 8).trans (extract_whole op)

/-- An instruction whose encoding decodes is read from its two bytes, and the bytes after them are left over (R53). -/
theorem decodeBytes_of_decode {m : SubDecode} {op : Word} {i : Instr} (h : decode m op = .ok i) (rest : List Byte) :
    decodeBytes m ((bytesOfWord op).1 :: (bytesOfWord op).2 :: rest) = .ok (i, rest) := by
  simp only [decodeBytes, wordOfBytes_bytesOfWord, h]

/-- The lemmas of the 35 instructions put together. -/
theorem decode_encode {m : SubDecode} {i : Instr} (h : i.wf m = true) : decode m (encode i) = .ok i := by
  cases i with
  | sys nnn => exact DecodeEncode.sys nnn m h
  | cls ign => exact DecodeEncode.cls ign m h
  | ret ign => exact DecodeEncode.ret ign m h
  | jp nnn => exact DecodeEncode.jp nnn m h
  | call nnn => exact DecodeEncode.call nnn m h
  | seImm x kk => exact DecodeEncode.seImm x kk m h
  | sneImm x kk => exact DecodeEncode.sneImm x kk m h
  | seReg x y ign => exact DecodeEncode.seReg x y ign m h
  | ldImm x kk => exact DecodeEncode.ldImm x kk m h
  | addImm x kk => exact DecodeEncode.addImm x kk m h
  | ldReg x y => exact DecodeEncode.ldReg x y m h
  | orReg x y => exact DecodeEncode.orReg x y m h
  | andReg x y => exact DecodeEncode.andReg x y m h
  | xorReg x y => exact DecodeEncode.xorReg x y m h
  | addReg x y => exact DecodeEncode.addReg x y m h
  | sub x y => exact DecodeEncode.sub x y m h
  | shr x y => exact DecodeEncode.shr x y m h
  | subn x y => exact DecodeEncode.subn x y m h
  | shl x y => exact DecodeEncode.shl x y m h
  | sneReg x y ign => exact DecodeEncode.sneReg x y ign m h
  | ldI nnn => exact DecodeEncode.ldI nnn m h
  | jpV0 nnn => exact DecodeEncode.jpV0 nnn m h
  | rnd x kk => exact DecodeEncode.rnd x kk m h
  | drw x y n => exact DecodeEncode.drw x y n m h
  | skp x ign => exact DecodeEncode.skp x ign m h
  | sknp x ign => exact DecodeEncode.sknp x ign m h
  | ldVxDt x => exact DecodeEncode.ldVxDt x m h
  | ldVxK x => exact DecodeEncode.ldVxK x m h
  | ldDtVx x => exact DecodeEncode.ldDtVx x m h
  | ldStVx x => exact DecodeEncode.ldStVx x m h
  | addIVx x => exact DecodeEncode.addIVx x m h
  | ldFVx x => exact DecodeEncode.ldFVx x m h
  | ldBVx x => exact DecodeEncode.ldBVx x m h
  | ldMemVx x => exact DecodeEncode.ldMemVx x m h
  | ldVxMem x => exact DecodeEncode.ldVxMem x m h

end Sys2Proof

open Sys2Proof Sys2Proof.Machine Sys2Proof.Claims

/-- Settles O6: each instruction decodes from its word, and the word from its two bytes. -/
theorem decodeOfEncodeIsTheInstruction : Obligations.DecodeOfEncodeIsTheInstruction := by
  unfold Obligations.DecodeOfEncodeIsTheInstruction
  exact fun m i h => ⟨decode_encode h, decodeBytes_of_decode (decode_encode h)⟩

/-- Settles O9, by running the decoder on the table. -/
theorem sampleWordsDecode : Obligations.SampleWordsDecode := by
  unfold Obligations.SampleWordsDecode
  exact ⟨rfl, by decide⟩

/-- Settles O10: the standard words are the encodings of instructions that are well-formed under both settings. -/
theorem subDecodeSettingsAgreeOnStandardWords : Obligations.SubDecodeSettingsAgreeOnStandardWords := by
  unfold Obligations.SubDecodeSettingsAgreeOnStandardWords
  have hskp : ∀ x : Reg, encode (.skp x 9) = 0xE09E + 256#16 * BitVec.ofNat 16 x.val := by decide
  have hsknp : ∀ x : Reg, encode (.sknp x 10) = 0xE0A1 + 256#16 * BitVec.ofNat 16 x.val := by decide
  refine ⟨fun m => ⟨?_, ?_, fun x => ?_, fun x => ?_⟩, by decide, by decide⟩
  · exact decode_encode (i := .cls 0x0E) (by cases m <;> rfl)
  · exact decode_encode (i := .ret 0x0E) (by cases m <;> rfl)
  · rw [← hskp]
    exact decode_encode (by cases m <;> rfl)
  · rw [← hsknp]
    exact decode_encode (by cases m <;> rfl)

end

/-! ### Encoding a decoded instruction (R54, R57-R63) -/

section

namespace Sys2Proof

open Opcode

/-- The instruction `i` stands for the word `op` under the setting `m`. -/
def StandsFor (m : SubDecode) (op : Word) (i : Instr) : Prop := encode i = op ∧ i.wf m = true

variable {m : SubDecode} {op : Word} {i : Instr}

theorem encodeA_of_family {f : Nibble} (h : family op = f) : encodeA f (nnn op) = op := h ▸ encodeA_fields op

theorem encodeXK_of_family {f : Nibble} (h : family op = f) : encodeXK f (x op) (kk op) = op := h ▸ encodeXK_fields op

theorem encodeXY_of_family {f : Nibble} (h : family op = f) : encodeXY f (x op) (y op) (low op) = op :=
  h ▸ encodeXY_fields op

theorem mid_of_nnn (op : Word) : (nnn op).extractLsb' 4 4 = mid op := by
  rw [← nnn_fields, mid_of_append8, mid_of_upper]

theorem decodeFamily0_standsFor (hf : family op = 0x0#4) : StandsFor m op (decodeFamily0 m op) := by
  have word {g : Nibble} (hg : (low op == g) = true) : encodeA 0x0#4 (upper op ++ g) = op := by
    rw [← eq_of_beq hg, nnn_fields, encodeA_of_family hf]
  have wf {g : Nibble} (h : highNibbleOk m (mid op) g = true) :
      highNibbleOk m ((upper op).extractLsb' 0 4) g = true := by rwa [mid_of_upper]
  unfold decodeFamily0
  split
  · next hc =>
    obtain ⟨hmid, hlow⟩ := Bool.and_eq_true_iff.1 hc
    exact ⟨word hlow, wf hmid⟩
  · split
    · next hc =>
      obtain ⟨hmid, hlow⟩ := Bool.and_eq_true_iff.1 hc
      exact ⟨word hlow, wf hmid⟩
    · next hcls hret =>
      rw [Bool.not_eq_true] at hcls hret
      refine ⟨encodeA_of_family hf, ?_⟩
      rw [Instr.wf, Laws.DecodeEncode.isClsOrRet_eq, low_of_nnn, mid_of_nnn, Bool.and_or_distrib_left, hcls, hret]
      rfl

theorem decodeFamily8_standsFor (hf : family op = 0x8#4) (h : decodeFamily8 op = .ok i) : StandsFor m op i := by
  have word {g : Nibble} (hg : low op = g) : encodeXY 0x8#4 (x op) (y op) g = op := hg ▸ encodeXY_of_family hf
  unfold decodeFamily8 at h
  split at h <;> cases h <;> exact ⟨word ‹_›, rfl⟩

theorem decodeFamilyE_standsFor (hf : family op = 0xE#4) (h : decodeFamilyE m op = .ok i) : StandsFor m op i := by
  have word {g : Nibble} (hg : (low op == g) = true) : encodeXK 0xE#4 (x op) (mid op ++ g) = op := by
    rw [← eq_of_beq hg, kk_fields, encodeXK_of_family hf]
  unfold decodeFamilyE at h
  split at h
  · next hc =>
    obtain ⟨hmid, hlow⟩ := Bool.and_eq_true_iff.1 hc
    cases h
    exact ⟨word hlow, hmid⟩
  · split at h
    · next hc =>
      obtain ⟨hmid, hlow⟩ := Bool.and_eq_true_iff.1 hc
      cases h
      exact ⟨word hlow, hmid⟩
    · cases h

theorem decodeFamilyF_standsFor (hf : family op = 0xF#4) (h : decodeFamilyF op = .ok i) : StandsFor m op i := by
  have word {k : Byte} (hk : kk op = k) : encodeXK 0xF#4 (x op) k = op := hk ▸ encodeXK_of_family hf
  unfold decodeFamilyF at h
  split at h <;> cases h <;> exact ⟨word ‹_›, rfl⟩

/-- Every row of R58 keeps all bits of its words: the fields it reads make the word again. -/
theorem decode_standsFor (h : decode m op = .ok i) : StandsFor m op i := by
  unfold decode at h
  split at h
  case h_1 hf => exact Except.ok.inj h ▸ decodeFamily0_standsFor hf
  case h_9 hf => exact decodeFamily8_standsFor hf h
  case h_15 hf => exact decodeFamilyE_standsFor hf h
  case h_16 => exact decodeFamilyF_standsFor (by simp only [imp_false] at *; bv_omega) h
  case h_2 hf | h_3 hf | h_11 hf | h_12 hf => cases h; exact ⟨encodeA_of_family hf, rfl⟩
  case h_4 hf | h_5 hf | h_7 hf | h_8 hf | h_13 hf => cases h; exact ⟨encodeXK_of_family hf, rfl⟩
  case h_6 hf | h_10 hf | h_14 hf => cases h; exact ⟨encodeXY_of_family hf, rfl⟩

end Sys2Proof

open Sys2Proof Sys2Proof.Machine Sys2Proof.Claims

/-- Settles O7, from the families' lemmas. -/
theorem encodeOfDecodeIsTheWord : Obligations.EncodeOfDecodeIsTheWord := by
  unfold Obligations.EncodeOfDecodeIsTheWord
  exact fun m op i h => decode_standsFor h

end

/-! ### Unrecognised words (R60-R62, R64) -/

section

namespace Sys2Proof

open Opcode

/-- The reading `r` of the word `op` is a rejection where `listed` holds and an instruction elsewhere. -/
def RejectsExactly (listed : Prop) (op : Word) (r : Except Reject Instr) : Prop :=
  (listed → r = .error (.unrecognised op)) ∧ (¬ listed → ∃ i, r = .ok i)

variable {listed : Prop} {op : Word}

theorem RejectsExactly.of_not_listed (i : Instr) (h : ¬ listed) : RejectsExactly listed op (.ok i) :=
  ⟨fun h' => absurd h' h, fun _ => ⟨i, rfl⟩⟩

theorem RejectsExactly.of_listed (h : listed) : RejectsExactly listed op (.error (.unrecognised op)) :=
  ⟨fun _ => rfl, absurd h⟩

theorem family_toNat (op : Word) : (family op).toNat = op.toNat / 4096 := by
  simp [family, Nat.shiftRight_eq_div_pow]; omega

theorem kk_toNat (op : Word) : (kk op).toNat = op.toNat % 256 := by
  simp [kk]

theorem low_toNat (op : Word) : (low op).toNat = op.toNat % 16 := by
  simp [low]

/-- op[7:4] and op[3:0] have two given values exactly where kk has the byte they make. -/
theorem mid_low_iff (g h : Nibble) : (mid op == g && low op == h) = true ↔ kk op = g ++ h := by
  rw [← kk_fields, Bool.and_eq_true_iff, beq_iff_eq, beq_iff_eq]
  refine ⟨fun ⟨hg, hh⟩ => by rw [hg, hh], fun he => ⟨?_, ?_⟩⟩
  · rw [← mid_of_append4 (mid op) (low op), he, mid_of_append4]
  · rw [← low_of_append4 (mid op) (low op), he, low_of_append4]

theorem decodeFamily8_rejects :
    RejectsExactly (8 ≤ (low op).toNat ∧ (low op).toNat ≤ 0xD ∨ (low op).toNat = 0xF) op (decodeFamily8 op) := by
  unfold decodeFamily8
  split
  case h_10 =>
    simp only [imp_false] at *
    exact .of_listed (by bv_omega)
  all_goals exact .of_not_listed _ (by simp [*])

theorem decodeFamilyE_rejects :
    RejectsExactly ((kk op).toNat ≠ 0x9E ∧ (kk op).toNat ≠ 0xA1) op (decodeFamilyE .lowByte op) := by
  simp only [decodeFamilyE, highNibbleOk, mid_low_iff]
  split
  · next h => exact .of_not_listed _ (by simp [h])
  · split
    · next h => exact .of_not_listed _ (by simp [h])
    · next hskp hsknp =>
      exact .of_listed ⟨fun h => hskp (BitVec.eq_of_toNat_eq h), fun h => hsknp (BitVec.eq_of_toNat_eq h)⟩

theorem decodeFamilyF_rejects :
    RejectsExactly ((kk op).toNat ∉ [0x07, 0x0A, 0x15, 0x18, 0x1E, 0x29, 0x33, 0x55, 0x65]) op (decodeFamilyF op) := by
  unfold decodeFamilyF
  split
  case h_10 =>
    simp only [imp_false] at *
    exact .of_listed (by simp only [List.mem_cons, List.not_mem_nil, or_false]; bv_omega)
  all_goals exact .of_not_listed _ (by simp [*])

theorem decode_lowByte_rejects :
    RejectsExactly
      (((family op).toNat = 8 ∧ (8 ≤ (low op).toNat ∧ (low op).toNat ≤ 0xD ∨ (low op).toNat = 0xF)) ∨
        ((family op).toNat = 0xE ∧ (kk op).toNat ≠ 0x9E ∧ (kk op).toNat ≠ 0xA1) ∨
        ((family op).toNat = 0xF ∧ (kk op).toNat ∉ [0x07, 0x0A, 0x15, 0x18, 0x1E, 0x29, 0x33, 0x55, 0x65]))
      op (decode .lowByte op) := by
  unfold decode
  split
  case h_9 hf => simpa [hf] using decodeFamily8_rejects
  case h_15 hf => simpa [hf] using decodeFamilyE_rejects
  case h_16 =>
    have hf : family op = 0xF#4 := by simp only [imp_false] at *; bv_omega
    simpa [hf] using decodeFamilyF_rejects
  all_goals exact .of_not_listed _ (by simp [*])

end Sys2Proof

open Sys2Proof Sys2Proof.Machine Sys2Proof.Claims

/-- Settles O8: the list is read off the fields of the word, family by family. -/
theorem unrecognisedWordsAreExactlyTheListed : Obligations.UnrecognisedWordsAreExactlyTheListed := by
  unfold Obligations.UnrecognisedWordsAreExactlyTheListed
  intro op
  simpa only [RejectsExactly, family_toNat, kk_toNat, low_toNat] using decode_lowByte_rejects (op := op)

end

/-! ### The step around the decoder (R56, R64, R119) -/

section

namespace Sys2Proof.Machine

/-- A tick takes 1 from a timer that is not 0 (R119). -/
theorem toNat_ticked (b : Byte) : (if b = 0#8 then 0#8 else b - 1#8).toNat = b.toNat - 1 := by
  split
  · next h => simp [h]
  · bv_omega

end Sys2Proof.Machine

open Sys2Proof Sys2Proof.Machine Sys2Proof.Claims

/-- Settles O11: the end of the step ticks where the instruction left no fault recorded. -/
theorem stepRunsTheDecodedInstruction : Obligations.StepRunsTheDecodedInstruction := by
  unfold Obligations.StepRunsTheDecodedInstruction
  rintro s i ⟨⟨hf, hpc⟩, hd⟩
  obtain ⟨t, ht⟩ := exec_next i s.advancePc
  have hstep : step s = .next t.endStep := step_exec hf hpc hd ht
  refine ⟨t, ht, fun hn => ?_, fun hs => ?_⟩
  · rw [hstep, State.endStep_ok hn]
    rfl
  · obtain ⟨f, hs⟩ := Option.ne_none_iff_exists'.1 hs
    rw [hstep, State.endStep_fault hs]
    rfl

/-- Settles O12: the step is the fetch's advance, the tick and the turn of the model's own fields. -/
theorem unrecognisedOpcodeOnlyTicks : Obligations.UnrecognisedOpcodeOnlyTicks := by
  unfold Obligations.UnrecognisedOpcodeOnlyTicks
  rintro s ⟨⟨hf, hpc⟩, e, hd⟩
  exact ⟨_, step_unrecognised hf hpc hd, rfl, toNat_ticked s.dt, toNat_ticked s.st, rfl⟩

end

/-! ## Proofs of the family 40_control_flow: jumps, calls, returns and skips -/

section

namespace Sys2Proof.Machine

open Sys2Proof.Claims

/-! ### Jump targets -/

/-- The address operand keeps its value (R55). -/
@[simp] theorem toNat_addrOperand (nnn : Addr12) : (addrOperand nnn).toNat = nnn.toNat := by
  rw [addrOperand, BitVec.zeroExtend_eq_setWidth, BitVec.toNat_setWidth_of_le (by decide)]

/-- The sum of R76 does not wrap: a 12-bit and an 8-bit value stay below 2^16. -/
theorem State.toNat_jumpV0Target (s : State) (nnn : Addr12) :
    (s.jumpV0Target nnn).toNat = nnn.toNat + (s.reg 0).toNat := by
  have hreg : (s.regWord 0).toNat = (s.reg 0).toNat := by
    rw [State.regWord, BitVec.zeroExtend_eq_setWidth, BitVec.toNat_setWidth_of_le (by decide)]
  have hn := nnn.isLt
  have hv := (s.reg 0).isLt
  rw [State.jumpV0Target, BitVec.toNat_add_of_lt (by rw [toNat_addrOperand, hreg]; omega), toNat_addrOperand, hreg]

/-! ### Calls and returns -/

/-- CALL leaves the advanced PC in the slot SP names (R71). -/
theorem slot_effect_call {s : State} {j : Nat} (nnn : Addr12) (hj : s.sp.toNat = j) (h : j < 16) :
    (effect (.call nnn) s).stack[j] = s.pc := by
  subst hj
  exact Vector.getElem_setIfInBounds_self h

/-- RET whose decremented SP is the slot `j` answers with PC at that slot's value (R69). -/
theorem pc_effect_ret {s : State} {j : Nat} (ign : BitVec 8) (hj : (s.sp - 1#8).toNat = j) (h : j < 16) :
    (effect (.ret ign) s).pc = s.stack[j] := by
  subst hj
  exact s.getD_stack h

/-! ### Skips -/

/-- An instruction whose effect is a skip adds 2 to PC under its condition and changes nothing else (R77). -/
theorem exec_skip {i : Instr} {s : State} {b : Bool} {skips stays : Prop} (he : exec i s = .next (s.skipIf b))
    (hskips : skips → b = true) (hstays : stays → b = false) :
    ∃ t, exec i s = .next t ∧ (skips → t.pc = s.pc + 2#16) ∧ (stays → t.pc = s.pc) ∧ Frame { pc := true } s t :=
  ⟨_, he, fun h => by rw [hskips h]; rfl, fun h => by rw [hstays h]; rfl, frame_skipIf b rfl⟩

end Sys2Proof.Machine

end

section

open Sys2Proof Sys2Proof.Machine Sys2Proof.Claims

/-- Settles O46: the next state is the state itself. -/
theorem sysDoesNothing : Obligations.SysDoesNothing := by
  unfold Obligations.SysDoesNothing
  exact fun nnn s => ⟨_, exec_of_completes trivial, frame_effect (.sys nnn) s⟩

/-- Settles O47. -/
theorem jumpSetsPc : Obligations.JumpSetsPc := by
  unfold Obligations.JumpSetsPc
  exact fun nnn s => ⟨_, exec_of_completes trivial, toNat_addrOperand nnn, frame_effect (.jp nnn) s⟩

/-- Settles O48: the target is R76's unmasked sum, which does not wrap. -/
theorem jumpWithOffsetAddsVZero : Obligations.JumpWithOffsetAddsVZero := by
  unfold Obligations.JumpWithOffsetAddsVZero
  exact fun nnn s => ⟨_, exec_of_completes trivial, s.toNat_jumpV0Target nnn, frame_effect (.jpV0 nnn) s⟩

/-- Settles O49: with a free slot the call completes, without one it overflows. -/
theorem callPushesTheReturnAddress : Obligations.CallPushesTheReturnAddress := by
  unfold Obligations.CallPushesTheReturnAddress
  refine fun nnn s => ⟨fun j hj => ?_, fun h => ⟨_, exec_call_fault nnn (Nat.not_lt.2 h), rfl⟩⟩
  have hc : Completes (.call nnn) s := hj.trans_lt j.isLt
  have hsp : (s.sp + 1#8).toNat = s.sp.toNat + 1 := by have := j.isLt; bv_omega
  have frame : Frame { pc := true, sp := true, slots := [j.val] } s (effect (.call nnn) s) :=
    hj ▸ frame_effect (.call nnn) s
  exact ⟨_, exec_of_completes hc, slot_effect_call nnn hj j.isLt, hsp, toNat_addrOperand nnn, frame⟩

/-- Settles O50: SP counts down to the slot of a return that completes; from 0 it wraps to 255, from 17 on it stays
outside the slots. -/
theorem returnPopsTheReturnAddress : Obligations.ReturnPopsTheReturnAddress := by
  unfold Obligations.ReturnPopsTheReturnAddress
  refine fun ign s => ⟨fun j hj => ?_, fun h => ?_⟩
  · have hsp : (s.sp - 1#8).toNat = j.val := by bv_omega
    have hc : Completes (.ret ign) s := hsp.trans_lt j.isLt
    exact ⟨_, exec_of_completes hc, pc_effect_ret ign hsp j.isLt, hsp, frame_effect (.ret ign) s⟩
  · have hout : ¬ (s.sp - 1#8).toNat < 16 := by
      rcases h with h | h
      · rw [h]; decide
      · bv_omega
    exact ⟨_, exec_ret_fault ign hout, rfl⟩

/-- Settles O51: the decremented SP is the call's, and its slot holds the call's return address. -/
theorem returnUndoesCall : Obligations.ReturnUndoesCall := by
  unfold Obligations.ReturnUndoesCall
  intro nnn ign s t u hcall hstack hsp
  obtain ⟨-, hfree, rfl⟩ := runs_iff.1 hcall
  have hdown : u.sp - 1#8 = s.sp := by rw [hsp]; exact BitVec.add_sub_cancel s.sp 1#8
  have hc : Completes (.ret ign) u := (congrArg BitVec.toNat hdown).trans_lt hfree
  refine ⟨_, exec_of_completes hc, ?_, hdown⟩
  rw [pc_effect_ret ign (congrArg BitVec.toNat hdown) hfree]
  simp only [hstack]
  exact slot_effect_call nnn rfl hfree

/-- Settles O52: both skips are `skipIf` of their comparison. -/
theorem immediateSkipsCompareVx : Obligations.ImmediateSkipsCompareVx := by
  unfold Obligations.ImmediateSkipsCompareVx
  exact fun x kk s => ⟨exec_skip (exec_of_completes (i := .seImm x kk) trivial) beq_iff_eq.2 beq_eq_false_iff_ne.2,
    exec_skip (exec_of_completes (i := .sneImm x kk) trivial) bne_iff_ne.2 bne_eq_false_iff_eq.2⟩

/-- Settles O53: as O52, the ignored bits being no part of the effect (R63). -/
theorem registerSkipsCompareVxAndVy : Obligations.RegisterSkipsCompareVxAndVy := by
  unfold Obligations.RegisterSkipsCompareVxAndVy
  exact fun x y ign s =>
    ⟨exec_skip (exec_of_completes (i := .seReg x y ign) trivial) beq_iff_eq.2 beq_eq_false_iff_ne.2,
      exec_skip (exec_of_completes (i := .sneReg x y ign) trivial) bne_iff_ne.2 bne_eq_false_iff_eq.2⟩

end

/-! ## Proofs of the family 41_alu: register loads and the ALU -/

/-! ### Results and flags -/

section

namespace Sys2Proof.Machine

open Sys2Proof.Claims

/-- A register reads as what was last written to it. -/
theorem State.reg_setReg_self (s : State) (x : Reg) (b : Byte) : (s.setReg x b).reg x = b := by
  rw [State.reg_setReg, if_pos rfl]

/-- The flag write does not reach the result of an instruction whose Vx is another register (R17). -/
theorem State.reg_setRegFlag_result {x : Reg} (s : State) (result flag : Byte) (hx : x ≠ 15) :
    (s.setRegFlag x result flag).reg x = result := by
  simp [State.setRegFlag, hx]

/-- The flag is written last, so VF ends as the flag even where Vx is VF (R17). -/
theorem State.reg_setRegFlag_flag (s : State) (x : Reg) (result flag : Byte) :
    (s.setRegFlag x result flag).reg 15 = flag := by
  simp [State.setRegFlag]

theorem flagByte_decide (p : Prop) [Decidable p] : flagByte (decide p) = if p then 1#8 else 0#8 := by
  simp [flagByte]

/-- Bit 0 of a byte is its remainder by 2 (R86). -/
theorem toNat_shiftRightFlag (a : Byte) : (shiftRightFlag a).toNat = a.toNat % 2 :=
  Nat.and_one_is_mod a.toNat

/-- Bit 7 of a byte, shifted down (R88). -/
theorem toNat_shiftLeftFlag_bit (a : Byte) : (shiftLeftFlag .bit a).toNat = a.toNat / 128 := by
  have hhigh : a.toNat / 128 < 2 := by have := a.isLt; omega
  calc (shiftLeftFlag .bit a).toNat
      = (a.toNat >>> 7) % 2 := Nat.and_one_is_mod (a.toNat >>> 7)
    _ = a.toNat / 128 % 2 := by rw [Nat.shiftRight_eq_div_pow]
    _ = a.toNat / 128 := Nat.mod_eq_of_lt hhigh

/-- Bit 7 of a byte, in place (R88). -/
theorem toNat_shiftLeftFlag_raw (a : Byte) : (shiftLeftFlag .raw a).toNat = a.toNat / 128 * 128 := by
  have hhigh : a.toNat / 128 < 2 := by have := a.isLt; omega
  calc (shiftLeftFlag .raw a).toNat
      = (a.toNat.testBit 7).toNat * 2 ^ 7 := Nat.and_two_pow a.toNat 7
    _ = a.toNat / 128 % 2 * 128 := by simp only [Nat.toNat_testBit, Nat.reducePow]
    _ = a.toNat / 128 * 128 := by rw [Nat.mod_eq_of_lt hhigh]

/-- An instruction that leaves `a - b` in Vx and its not-borrow in VF wraps modulo 256 and compares strictly (R85, R87). -/
theorem exec_subtract {i : Instr} {s : State} {x : Reg} {a b : Byte}
    (he : exec i s = .next (s.setRegFlag x (a - b) (notBorrowFlag a b))) :
    ∃ t, exec i s = .next t ∧ (x ≠ 15 → (t.reg x).toNat = (a.toNat + 256 - b.toNat) % 256) ∧
      t.reg 15 = (if b.toNat < a.toNat then 1#8 else 0#8) ∧ Frame { regs := [x, 15] } s t := by
  refine ⟨_, he, fun hx => ?_, ?_, frame_setRegFlag _ _ List.mem_cons_self mem_pair_right⟩
  · rw [s.reg_setRegFlag_result _ _ hx]
    bv_omega
  · rw [s.reg_setRegFlag_flag, notBorrowFlag, flagByte_decide]

@[simp] theorem State.randByte_advancePc (s : State) : s.advancePc.randByte = s.randByte := rfl

/-- RND leaves this step's byte AND kk in Vx (R89). -/
theorem reg_effect_rnd (x : Reg) (kk : Byte) (s : State) : (effect (.rnd x kk) s).reg x = s.randByte &&& kk :=
  s.reg_setReg_self x _

end Sys2Proof.Machine

end

section

open Sys2Proof Sys2Proof.Machine Sys2Proof.Claims

/-- Settles O26. -/
theorem loadImmediateWritesTheByte : Obligations.LoadImmediateWritesTheByte := by
  unfold Obligations.LoadImmediateWritesTheByte
  exact fun x kk s => ⟨_, exec_of_completes trivial, s.reg_setReg_self x kk, frame_effect (.ldImm x kk) s⟩

/-- Settles O27: a byte's sum is the sum modulo 2^8. -/
theorem addImmediateWrapsWithoutFlag : Obligations.AddImmediateWrapsWithoutFlag := by
  unfold Obligations.AddImmediateWrapsWithoutFlag
  refine fun x kk s => ⟨_, exec_of_completes trivial, ?_, frame_effect (.addImm x kk) s⟩
  rw [effect, s.reg_setReg_self, BitVec.toNat_add]

/-- Settles O28: the operations on bytes are the Boolean ones on each bit. -/
theorem copyAndBitwiseOperations : Obligations.CopyAndBitwiseOperations := by
  unfold Obligations.CopyAndBitwiseOperations
  refine fun x y s => ⟨?copy, ?or, ?and, ?xor⟩
  case copy => exact ⟨_, exec_of_completes trivial, s.reg_setReg_self x _, frame_effect (.ldReg x y) s⟩
  case or =>
    refine ⟨_, exec_of_completes trivial, fun j => ?_, frame_effect (.orReg x y) s⟩
    rw [effect, s.reg_setReg_self, BitVec.getLsbD_or]
  case and =>
    refine ⟨_, exec_of_completes trivial, fun j => ?_, frame_effect (.andReg x y) s⟩
    rw [effect, s.reg_setReg_self, BitVec.getLsbD_and]
  case xor =>
    refine ⟨_, exec_of_completes trivial, fun j => ?_, frame_effect (.xorReg x y) s⟩
    rw [effect, s.reg_setReg_self, BitVec.getLsbD_xor]

/-- Settles O29: the carry is written last, so it replaces the sum where x is 0xF (R17). -/
theorem addRegistersSetsCarryLast : Obligations.AddRegistersSetsCarryLast := by
  unfold Obligations.AddRegistersSetsCarryLast
  refine fun x y s => ⟨_, exec_of_completes trivial, fun hx => ?_, ?_, frame_effect (.addReg x y) s⟩
  · rw [effect, s.reg_setRegFlag_result _ _ hx, BitVec.toNat_add]
  · rw [effect, s.reg_setRegFlag_flag, carryFlag, flagByte_decide]

/-- Settles O30: SUB and SUBN are the same subtraction with the operands exchanged. -/
theorem subtractsSetStrictNotBorrowLast : Obligations.SubtractsSetStrictNotBorrowLast := by
  unfold Obligations.SubtractsSetStrictNotBorrowLast
  exact fun x y s => ⟨exec_subtract (exec_of_completes (i := .sub x y) trivial),
    exec_subtract (exec_of_completes (i := .subn x y) trivial)⟩

/-- Settles O31: half of Vx, then its remainder by 2. -/
theorem shiftRightSetsOldBitZero : Obligations.ShiftRightSetsOldBitZero := by
  unfold Obligations.ShiftRightSetsOldBitZero
  refine fun x y s => ⟨_, exec_of_completes trivial, fun hx => ?_, ?_, frame_effect (.shr x y) s⟩
  · rw [effect, s.reg_setRegFlag_result _ _ hx, BitVec.toNat_ushiftRight, Nat.shiftRight_eq_div_pow, pow_one]
  · rw [effect, s.reg_setRegFlag_flag, toNat_shiftRightFlag]

/-- Settles O32: twice Vx modulo 256, then bit 7 as the setting says. -/
theorem shiftLeftSetsOldBitSeven : Obligations.ShiftLeftSetsOldBitSeven := by
  unfold Obligations.ShiftLeftSetsOldBitSeven
  refine fun x y s =>
    ⟨_, exec_of_completes trivial, fun hx => ?_, fun hbit => ?_, fun hraw => ?_, frame_effect (.shl x y) s⟩
  · rw [effect, s.reg_setRegFlag_result _ _ hx, BitVec.toNat_shiftLeft, Nat.shiftLeft_eq, pow_one]
  · rw [effect, s.reg_setRegFlag_flag, hbit, toNat_shiftLeftFlag_bit]
  · rw [effect, s.reg_setRegFlag_flag, hraw, toNat_shiftLeftFlag_raw]

/-- Settles O33: the fetch does not turn the port, so the step's byte is the one RND reads; the end of the step uses it up. -/
theorem randomAndConsumesOneByte : Obligations.RandomAndConsumesOneByte := by
  unfold Obligations.RandomAndConsumesOneByte
  refine fun x kk s => ⟨_, exec_of_completes trivial, fun j => ?bits, fun b rest => State.randByte_cons, ?zero, ?step,
    frame_effect (.rnd x kk) s⟩
  case bits => rw [reg_effect_rnd, BitVec.getLsbD_and]
  case zero =>
    rintro rfl
    rw [reg_effect_rnd, BitVec.and_zero]
  case step =>
    intro hi
    have hstep := step_of_completes hi trivial
    obtain ⟨-, hrand, -⟩ := step_own_fields hstep
    refine ⟨_, hstep, fun j => ?_, hrand⟩
    rw [State.reg_countStep, State.reg_tick, reg_effect_rnd, State.randByte_advancePc, BitVec.getLsbD_and]

end

/-! ## Proofs of the family 42_index_memory: the index register and register blocks -/

/-! ### Addresses and digits -/

section

namespace Sys2Proof.Machine

open Sys2Proof.Claims

/-- A register as a word keeps its value (R92). -/
@[simp] theorem State.toNat_regWord (s : State) (x : Reg) : (s.regWord x).toNat = (s.reg x).toNat := by
  rw [State.regWord, BitVec.zeroExtend_eq_setWidth, BitVec.toNat_setWidth_of_le (by decide)]

/-- The glyph address of R93 does not wrap: the largest, for Vx = 255, is 0x54B. -/
@[simp] theorem State.toNat_glyphAddr (s : State) (x : Reg) : (s.glyphAddr x).toNat = 0x050 + 5 * (s.reg x).toNat := by
  have hv := (s.reg x).isLt
  rw [State.glyphAddr, Config.fontBase, BitVec.toNat_ofNat, Nat.mod_eq_of_lt (by omega)]

/-- LD B,Vx leaves the digit `j` of R94's list at I + j, and a digit no larger than Vx fits its byte. -/
theorem toNat_byteAt_effect_ldBVx {x : Reg} {s : State} {j d : Nat}
    (hdigit : (bcdDigits (s.reg x))[j]? = some (BitVec.ofNat 8 d)) (hd : d ≤ (s.reg x).toNat) :
    ((effect (.ldBVx x) s).byteAt (s.i.toNat + j)).toNat = d := by
  obtain ⟨hj, hbyte⟩ := List.getElem?_eq_some_iff.1 hdigit
  have hread : (effect (.ldBVx x) s).byteAt (s.i.toNat + j) = BitVec.ofNat 8 d := by
    rw [effect, State.byteAt_setMem, Memory.read_writeList, dif_pos (by omega)]
    simpa only [Nat.add_sub_cancel_left] using hbyte
  rw [hread, BitVec.toNat_ofNat, Nat.mod_eq_of_lt (hd.trans_lt (s.reg x).isLt)]

end Sys2Proof.Machine

end

section

open Sys2Proof Sys2Proof.Machine Sys2Proof.Claims

/-- Settles O37: the three bytes of the block are the digits of Vx, none larger than Vx itself. -/
theorem storeBcdWritesThreeDigits : Obligations.StoreBcdWritesThreeDigits := by
  unfold Obligations.StoreBcdWritesThreeDigits
  refine fun x s hin => ⟨_, exec_of_completes hin, ?hundreds, ?tens, ?ones, frame_effect (.ldBVx x) s⟩
  case hundreds => exact toNat_byteAt_effect_ldBVx (j := 0) rfl (Nat.div_le_self ..)
  case tens => exact toNat_byteAt_effect_ldBVx (j := 1) rfl ((Nat.mod_le ..).trans (Nat.div_le_self ..))
  case ones => exact toNat_byteAt_effect_ldBVx (j := 2) rfl (Nat.mod_le ..)

/-- Settles O38. -/
theorem storeRegistersWritesUpToVx : Obligations.StoreRegistersWritesUpToVx := by
  unfold Obligations.StoreRegistersWritesUpToVx
  exact fun x s hin =>
    ⟨_, exec_of_completes hin, fun y hy => byteAt_effect_ldMemVx s hy, frame_effect (.ldMemVx x) s⟩

/-- Settles O39. -/
theorem loadRegistersReadsUpToVx : Obligations.LoadRegistersReadsUpToVx := by
  unfold Obligations.LoadRegistersReadsUpToVx
  exact fun x s hin =>
    ⟨_, exec_of_completes hin, fun y hy => reg_effect_ldVxMem s hy, frame_effect (.ldVxMem x) s⟩

/-- Settles O34. -/
theorem loadIndexSetsTheAddress : Obligations.LoadIndexSetsTheAddress := by
  unfold Obligations.LoadIndexSetsTheAddress
  exact fun nnn s => ⟨_, exec_of_completes trivial, toNat_addrOperand nnn, frame_effect (.ldI nnn) s⟩

/-- Settles O35: a word's sum is the sum modulo 2^16. -/
theorem addToIndexWrapsAtSixteenBits : Obligations.AddToIndexWrapsAtSixteenBits := by
  unfold Obligations.AddToIndexWrapsAtSixteenBits
  refine fun x s => ⟨_, exec_of_completes trivial, ?_, frame_effect (.addIVx x) s⟩
  rw [effect, State.setI_i, BitVec.toNat_add, s.toNat_regWord]

/-- Settles O36: the address of R93 fits I for every byte Vx. -/
theorem fontAddressIsFivePerDigit : Obligations.FontAddressIsFivePerDigit := by
  unfold Obligations.FontAddressIsFivePerDigit
  exact fun x s => ⟨_, exec_of_completes trivial, s.toNat_glyphAddr x, frame_effect (.ldFVx x) s⟩

end

/-! ## Proofs of the family 43_display: CLS, and the XOR blit of DRW -/

/-! ### The cells of a sprite (R99-R103) -/

section

namespace Sys2Proof.Machine

open Sys2Proof.Claims

variable {x y : Reg} {n : Fin 16} {s t : State} {r c k m : Nat}

/-- The model's cell of a pixel is the one the statements name, under each setting of SPRITE_EDGE_MODE (R100-R102). -/
theorem cellIndex_origin_eq_some_iff :
    cellIndex s.params.edgeMode (s.originColumn x) (s.originRow y) r c = some k ↔ PixelCell s x y r c k := by
  simp only [PixelCell, State.originColumn, State.originRow]
  cases s.params.edgeMode with
  | spill | wrap => simp only [cellIndex, Option.some.injEq, eq_comm]
  | clip =>
    simp only [cellIndex, Option.ite_none_right_eq_some, Option.some.injEq, and_assoc, eq_comm (b := k)]

theorem mem_rowCells_iff_exists_pixel {columns : List Nat} :
    k ∈ rowCells s.params.edgeMode (s.originColumn x) (s.originRow y) r (s.byteAt (s.dataAddr r)) columns ↔
      ∃ c ∈ columns, PixelSet s r c ∧ PixelCell s x y r c k := by
  simp only [mem_rowCells, cellIndex_origin_eq_some_iff]
  rfl

theorem mem_spriteCells_iff_covers :
    k ∈ spriteCells s (s.originColumn x) (s.originRow y) (List.range m) ↔ Covers s x y m k := by
  simp only [mem_spriteCells, cellIndex_origin_eq_some_iff, List.mem_range]
  constructor
  · rintro ⟨r, hr, c, hc, hset, hcell⟩
    exact ⟨r, c, hr, hc, hset, hcell⟩
  · rintro ⟨r, c, hr, hc, hset, hcell⟩
    exact ⟨r, hr, c, hc, hset, hcell⟩

theorem mem_spriteAt_iff_covers : k ∈ s.spriteAt x y n ↔ Covers s x y n.val k := mem_spriteCells_iff_covers

/-- Rows that fit keep every cell of their sprite on the grid. -/
theorem spriteCells_lt_of_rowsFit (h : RowsFit s x y m) :
    ∀ k ∈ spriteCells s (s.originColumn x) (s.originRow y) (List.range m), k < 2048 :=
  fun k hk => h.2 k (mem_spriteCells_iff_covers.1 hk)

/-- DRW completes exactly where its rows can be read and its set pixels stay on the grid (R99, R101). -/
theorem completes_drw_iff : Completes (.drw x y n) s ↔ RowsFit s x y n.val := by
  simp only [Completes, RowsFit, mem_spriteAt_iff_covers]
  rfl

/-! ### What DRW leaves in the cells and in VF -/

/-- What the blit has done: each cell of the sprite is toggled once, and a collision is a cell of it that was on. -/
theorem drawn_spec (h : RowsFit s x y n.val) :
    (∀ k, Cells.get (s.drawn x y n).disp k = (s.cell k ^^ decide (k ∈ s.spriteAt x y n))) ∧
      (s.drawn x y n).collided = (s.spriteAt x y n).any s.cell := by
  have hnodup : (s.spriteAt x y n).Nodup := spriteCells_nodup s _ _ (by omega)
  obtain ⟨hget, hcollided⟩ := Blit.toggleAll_spec ⟨s.disp, false⟩ hnodup (spriteCells_lt_of_rowsFit h)
  exact ⟨hget, hcollided.trans (Bool.false_or _)⟩

theorem cell_effect_drw_of_covers (h : RowsFit s x y n.val) (hk : Covers s x y n.val k) :
    (effect (.drw x y n) s).cell k = !s.cell k := by
  rw [effect, State.cell_setFlag, State.cell_setDisp, (drawn_spec h).1, decide_eq_true (mem_spriteAt_iff_covers.2 hk),
    Bool.xor_true]

theorem cell_effect_drw_of_not_covers (h : RowsFit s x y n.val) (hk : ¬ Covers s x y n.val k) :
    (effect (.drw x y n) s).cell k = s.cell k := by
  rw [effect, State.cell_setFlag, State.cell_setDisp, (drawn_spec h).1,
    decide_eq_false (mem_spriteAt_iff_covers.not.2 hk), Bool.xor_false]

/-- VF ends as the collision flag, whatever the coordinates were (R103). -/
theorem flag_effect_drw (h : RowsFit s x y n.val) :
    (effect (.drw x y n) s).reg 15 = flagByte ((s.spriteAt x y n).any s.cell) := by
  rw [effect, State.setFlag, State.reg_setReg_self, (drawn_spec h).2]

theorem flag_effect_drw_of_on (h : RowsFit s x y n.val) (hon : ∃ k, Covers s x y n.val k ∧ s.cell k = true) :
    (effect (.drw x y n) s).reg 15 = 1#8 := by
  obtain ⟨k, hk, hcell⟩ := hon
  rw [flag_effect_drw h, List.any_eq_true.2 ⟨k, mem_spriteAt_iff_covers.2 hk, hcell⟩]
  rfl

theorem flag_effect_drw_of_off (h : RowsFit s x y n.val) (hoff : ∀ k, Covers s x y n.val k → s.cell k = false) :
    (effect (.drw x y n) s).reg 15 = 0#8 := by
  have hany : (s.spriteAt x y n).any s.cell = false :=
    List.any_eq_false.2 fun k hk => Bool.eq_false_iff.1 (hoff k (mem_spriteAt_iff_covers.1 hk))
  rw [flag_effect_drw h, hany]
  rfl

/-- The same sprite at the same origin covers the same cells after a draw, which keeps I, memory and the parameters. -/
theorem covers_iff_of_frame (frame : Frame { regs := [15], display := true } s t)
    (hx : x ≠ 15 ∨ (t.reg x).toNat % 64 = (s.reg x).toNat % 64)
    (hy : y ≠ 15 ∨ (t.reg y).toNat % 32 = (s.reg y).toNat % 32) : Covers t x y m k ↔ Covers s x y m k := by
  have hcolumn : (t.reg x).toNat % 64 = (s.reg x).toNat % 64 :=
    hx.elim (fun hne => by rw [frame.regs x (by simpa using hne)]) id
  have hrow : (t.reg y).toNat % 32 = (s.reg y).toNat % 32 :=
    hy.elim (fun hne => by rw [frame.regs y (by simpa using hne)]) id
  simp only [Covers, PixelSet, PixelCell, hcolumn, hrow, frame.index rfl, frame.byteAt_eq rfl, frame.params]

/-! ### Where a blit stops (R101, R116) -/

/-- The numbers below `m` in order, cut at one of them. -/
theorem exists_range_eq_append_cons (h : r < m) : ∃ after, List.range m = List.range r ++ r :: after := by
  obtain ⟨d, rfl⟩ := Nat.exists_eq_add_of_lt h
  rw [Nat.add_assoc, List.range_add, List.range_succ_eq_map]
  exact ⟨_, rfl⟩

/-- DRW takes the fault its blit stops with (R114). -/
theorem exec_drw_of_rows_error {f : Fault}
    (h : Blit.rows ⟨s.disp, false⟩ s (encode (.drw x y n)) (s.originColumn x) (s.originRow y) (List.range n.val)
      = .error f) : exec (.drw x y n) s = .next (s.raise f) := by
  simp only [exec, execDrw, h, settle_error]

theorem exec_drw_dataBounds (hr : r < n.val) (hfit : RowsFit s x y r) (haddr : 0xFFF < s.i.toNat + r) :
    exec (.drw x y n) s = .next (s.raise (.dataBounds (encode (.drw x y n)) (s.i.toNat + r))) := by
  obtain ⟨after, hrange⟩ := exists_range_eq_append_cons hr
  refine exec_drw_of_rows_error ?_
  rw [hrange]
  exact Blit.rows_dataBounds _ s _ _ _ _ after (fun q hq => hfit.1 q (List.mem_range.1 hq))
    (spriteCells_lt_of_rowsFit hfit) haddr

theorem exec_drw_displayBounds (hr : r < n.val) (hfit : RowsFit s x y r) (haddr : s.i.toNat + r ≤ 0xFFF) (hc : c < 8)
    (hset : PixelSet s r c) (hcell : PixelCell s x y r c k) (hk : 2048 ≤ k)
    (hbefore : ∀ c' k', c' < c → PixelSet s r c' → PixelCell s x y r c' k' → k' < 2048) :
    exec (.drw x y n) s = .next (s.raise (.displayBounds (encode (.drw x y n)) k)) := by
  obtain ⟨after, hrange⟩ := exists_range_eq_append_cons hr
  obtain ⟨columns, hcolumns⟩ := exists_range_eq_append_cons hc
  have hleft : ∀ j ∈ rowCells s.params.edgeMode (s.originColumn x) (s.originRow y) r (s.byteAt (s.dataAddr r))
      (List.range c), j < 2048 := fun j hj => by
    obtain ⟨c', hc', hset', hcell'⟩ := mem_rowCells_iff_exists_pixel.1 hj
    exact hbefore c' j (List.mem_range.1 hc') hset' hcell'
  refine exec_drw_of_rows_error ?_
  rw [hrange]
  exact Blit.rows_displayBounds _ s _ _ _ _ after _ columns (fun q hq => hfit.1 q (List.mem_range.1 hq))
    (spriteCells_lt_of_rowsFit hfit) haddr hcolumns hleft hset (cellIndex_origin_eq_some_iff.2 hcell) hk

end Sys2Proof.Machine

end

section

open Sys2Proof Sys2Proof.Machine Sys2Proof.Claims

/-- Settles O42. -/
theorem clearTurnsEveryCellOff : Obligations.ClearTurnsEveryCellOff := by
  unfold Obligations.ClearTurnsEveryCellOff
  exact fun ign s => ⟨_, exec_of_completes trivial, Cells.get_off, frame_effect (.cls ign) s⟩

/-- Settles O43: rows that fit let DRW complete, and its cells are distinct, so each is toggled once. -/
theorem drawTogglesExactlyTheCoveredCells : Obligations.DrawTogglesExactlyTheCoveredCells := by
  unfold Obligations.DrawTogglesExactlyTheCoveredCells
  exact fun x y n s hfit => ⟨_, exec_of_completes (completes_drw_iff.2 hfit),
    fun k hk => cell_effect_drw_of_covers hfit hk, fun k hk => cell_effect_drw_of_not_covers hfit hk,
    flag_effect_drw_of_on hfit, flag_effect_drw_of_off hfit, frame_effect (.drw x y n) s⟩

/-- Settles O44: the rows and columns before the fault are drawn, and the blit stops at the first that cannot be. -/
theorem drawFaultsInDrawingOrder : Obligations.DrawFaultsInDrawingOrder := by
  unfold Obligations.DrawFaultsInDrawingOrder
  exact fun x y n s r hr hfit => ⟨fun haddr => ⟨_, exec_drw_dataBounds hr hfit haddr, rfl⟩,
    fun c k haddr hc hset hcell hk hbefore =>
      ⟨_, exec_drw_displayBounds hr hfit haddr hc hset hcell hk hbefore, rfl⟩⟩

/-- Settles O45: the second draw covers the cells of the first, which has flipped each of them. -/
theorem drawTwiceRestoresTheDisplay : Obligations.DrawTwiceRestoresTheDisplay := by
  unfold Obligations.DrawTwiceRestoresTheDisplay
  intro x y n s t u hx hy hfirst hsecond
  have hcovers (k : Nat) : Covers t x y n.val k ↔ Covers s x y n.val k :=
    covers_iff_of_frame (frame_of_runs hfirst) hx hy
  obtain ⟨-, hc, rfl⟩ := runs_iff.1 hfirst
  obtain ⟨-, hc', rfl⟩ := runs_iff.1 hsecond
  have hfit : RowsFit s x y n.val := completes_drw_iff.1 hc
  have hfit' : RowsFit (effect (.drw x y n) s) x y n.val := completes_drw_iff.1 hc'
  refine ⟨fun k => ?restored, fun ⟨k, hk, hoff⟩ => ?turnedOn, fun hon => ?allOn⟩
  case restored =>
    by_cases hk : Covers s x y n.val k
    · rw [cell_effect_drw_of_covers hfit' ((hcovers k).2 hk), cell_effect_drw_of_covers hfit hk, Bool.not_not]
    · rw [cell_effect_drw_of_not_covers hfit' (mt (hcovers k).1 hk), cell_effect_drw_of_not_covers hfit hk]
  case turnedOn =>
    refine flag_effect_drw_of_on hfit' ⟨k, (hcovers k).2 hk, ?_⟩
    rw [cell_effect_drw_of_covers hfit hk, hoff, Bool.not_false]
  case allOn =>
    refine flag_effect_drw_of_off hfit' fun k hk => ?_
    have hcov : Covers s x y n.val k := (hcovers k).1 hk
    rw [cell_effect_drw_of_covers hfit hcov, hon k hcov, Bool.not_true]

end

/-! ## Proofs of the family 44_timers_input: keys and timers -/

section

namespace Sys2Proof.Machine

open Sys2Proof.Claims

variable {s : State} {x : Reg} {i : Instr} {k : Nat}

/-! ### The key wait (R108) -/

theorem State.awaitKey_of_some (h : s.lowestKeyDown = some k) : s.awaitKey x = s.setReg x (BitVec.ofNat 8 k) := by
  rw [State.awaitKey, h]

theorem State.awaitKey_of_none (h : s.lowestKeyDown = none) : s.awaitKey x = s.rollbackPc := by
  rw [State.awaitKey, h]

/-! ### The tick of a step that completes (R119) -/

/-- Each timer ends one below what the instruction left in it, or at 0, and no register is touched by the tick. -/
theorem step_ticks_effect (hi : Fetches s i) (hc : Completes i s.advancePc) :
    ∃ t, step s = .next t ∧ (∀ y, t.reg y = (effect i s.advancePc).reg y) ∧
      t.dt.toNat = (effect i s.advancePc).dt.toNat - 1 ∧ t.st.toNat = (effect i s.advancePc).st.toNat - 1 :=
  ⟨_, step_of_completes hi hc, fun _ => rfl, toNat_ticked _, toNat_ticked _⟩

end Sys2Proof.Machine

end

section

open Sys2Proof Sys2Proof.Machine Sys2Proof.Claims

/-- Settles O57: the tick takes 1 from what the move left in the timers. -/
theorem timerMovesAreFollowedByTheTick : Obligations.TimerMovesAreFollowedByTheTick := by
  unfold Obligations.TimerMovesAreFollowedByTheTick
  refine fun x s => ⟨fun hi => ?fromDt, fun hi => ?toDt, fun hi => ?toSt⟩ <;>
    obtain ⟨t, hstep, hreg, hdt, hst⟩ := step_ticks_effect hi trivial
  case fromDt => exact ⟨t, hstep, (hreg x).trans (s.advancePc.reg_setReg_self x s.dt), hdt, hst⟩
  case toDt => exact ⟨t, hstep, hdt, hst⟩
  case toSt => exact ⟨t, hstep, hst, hdt⟩

/-- Settles O54: at or below 15 both are `skipIf` of the key's level, above it there is no key to look at. -/
theorem keySkipsLookAtKeyVx : Obligations.KeySkipsLookAtKeyVx := by
  unfold Obligations.KeySkipsLookAtKeyVx
  refine fun x ign s => ⟨fun hkey => ⟨?_, ?_⟩, fun hover => ?_⟩
  · exact exec_skip (exec_skp_ok ign hkey) id id
  · exact exec_skip (exec_sknp_ok ign hkey) (fun hup => by rw [hup, Bool.not_false])
      (fun hdown => by rw [hdown, Bool.not_true])
  · exact ⟨⟨_, exec_skp_fault ign (Nat.not_le.2 hover), rfl⟩, ⟨_, exec_sknp_fault ign (Nat.not_le.2 hover), rfl⟩⟩

/-- Settles O55: the wait turns on the least key down, whose number fits a byte. -/
theorem keyWaitTakesTheLeastKeyOrRollsBack : Obligations.KeyWaitTakesTheLeastKeyOrRollsBack := by
  unfold Obligations.KeyWaitTakesTheLeastKeyOrRollsBack
  refine fun x s => ⟨s.awaitKey x, rfl, fun k hk hdown hleast => ?key, fun hup => ?noKey⟩
  case key =>
    rw [State.awaitKey_of_some (State.lowestKeyDown_some.2 ⟨hk, hdown, hleast⟩)]
    refine ⟨?_, frame_setReg _ (List.mem_singleton_self x)⟩
    rw [s.reg_setReg_self, BitVec.toNat_ofNat, Nat.mod_eq_of_lt (by omega)]
  case noKey =>
    rw [State.awaitKey_of_none (State.lowestKeyDown_none.2 hup)]
    exact ⟨rfl, frame_setPc _ rfl⟩

/-- Settles O56: each move is one write of the byte it reads. -/
theorem timerMovesCopyTheByte : Obligations.TimerMovesCopyTheByte := by
  unfold Obligations.TimerMovesCopyTheByte
  exact fun x s => ⟨⟨_, exec_of_completes trivial, s.reg_setReg_self x s.dt, frame_effect (.ldVxDt x) s⟩,
    ⟨_, exec_of_completes trivial, rfl, frame_effect (.ldDtVx x) s⟩,
    ⟨_, exec_of_completes trivial, rfl, frame_effect (.ldStVx x) s⟩⟩

end

/-! ## Proofs of the family 60_exceptions: faults, ports and the tick -/

section

namespace Sys2Proof.Machine

variable {s t u : State} {f g : Fault} {i : Instr}

/-! ### The fault ports (R112, R123) -/

theorem State.portFault_of_fault (h : s.fault = some f) : s.portFault = true := by
  rw [State.portFault, h, Option.isSome_some]

theorem State.portFaultCode_of_fault (h : s.fault = some f) : s.portFaultCode = f.code := by
  rw [State.portFaultCode, h]

theorem State.portFaultInfo_of_fault (h : s.fault = some f) : s.portFaultInfo = f.info := by
  rw [State.portFaultInfo, h]

/-- Of two words side by side the upper one counts in units of 2^16. -/
theorem toNat_word_append (upper lower : Word) :
    (upper ++ lower : BitVec 32).toNat = upper.toNat * 2 ^ 16 + lower.toNat := by
  rw [BitVec.toNat_append, ← Nat.shiftLeft_add_eq_or_of_lt lower.isLt, Nat.shiftLeft_eq]

/-- The info of a fault that carries a byte beside its opcode (log 12). -/
theorem toNat_word_append_byte (op : Word) (b : Byte) :
    (op ++ b.zeroExtend 16 : BitVec 32).toNat = op.toNat * 2 ^ 16 + b.toNat := by
  rw [toNat_word_append, BitVec.zeroExtend_eq_setWidth, BitVec.toNat_setWidth_of_le (by decide)]

/-- The info of a fault that carries an address or a cell beside its opcode (log 12). -/
theorem toNat_word_append_ofNat (op : Word) (a : Nat) :
    (op ++ BitVec.ofNat 16 a : BitVec 32).toNat = op.toNat * 2 ^ 16 + a % 2 ^ 16 := by
  rw [toNat_word_append, BitVec.toNat_ofNat]

/-! ### What becomes of a recorded fault (R114, R115, R134) -/

/-- A recorded fault outlives every answered request but reset: a step is not answered, the others leave the record. -/
theorem serve_keeps_fault {q : HostRequest} (hf : s.fault = some f) (hr : q ≠ .reset) (h : serve q s = .next t) :
    t.fault = some f := by
  cases q with
  | reset => exact absurd rfl hr
  | step => cases (step_faulted hf).symm.trans h
  | load image =>
    obtain ⟨-, -, rfl⟩ := hostLoad_cases h
    exact hf
  | keys levels | rand b => cases h; exact hf

/-! ### Where a fault comes from (R112) -/

/-- The record left by an instruction that takes the fault `g` is `g`. -/
theorem fault_of_exec_raise (hr : exec i s = .next (s.raise g)) (he : exec i s = .next t) (hf : t.fault = some f) :
    f = g := by
  rw [hr, Host.Outcome.next.injEq] at he
  subst he
  exact (Option.some.inj hf).symm

/-- An instruction that completes leaves no fault where none was recorded. -/
theorem not_completes_of_fault (hs : s.fault = none) (he : exec i s = .next t) (hf : t.fault = some f) :
    ¬ Completes i s := by
  intro hc
  rw [exec_of_completes hc, Host.Outcome.next.injEq] at he
  subst he
  rw [effect_fault, hs] at hf
  cases hf

/-- Only spill addresses a cell beyond the grid: clip skips it and wrap reduces both coordinates (R101, R102). -/
theorem spill_of_cellIndex_ge {mode : EdgeMode} {ox oy r c k : Nat} (h : cellIndex mode ox oy r c = some k)
    (hk : 2048 ≤ k) : mode = .spill := by
  cases mode with
  | spill => rfl
  | clip =>
    rw [cellIndex, Option.ite_none_right_eq_some, Option.some.injEq] at h
    omega
  | wrap =>
    rw [cellIndex, Option.some.injEq] at h
    omega

/-! ### Runs -/

/-- A run of at least one step that answers is an answered step and the rest of the run. -/
theorem run_succ_cases {n : Nat} (h : Host.Core.run core (n + 1) s = Host.Outcome.next u) :
    ∃ t, step s = .next t ∧ Host.Core.run core n t = Host.Outcome.next u := by
  have hcore : core.step s = step s := rfl
  cases hstep : step s with
  | next t =>
    simp only [Host.Core.run, hcore, hstep] at h
    exact ⟨t, rfl, h⟩
  | fault r | refused r =>
    simp only [Host.Core.run, hcore, hstep] at h
    cases h

/-- What every answered step keeps holds at the end of every run of answered steps. -/
theorem run_keeps {P : State → Prop} (hstep : ∀ s t : State, P s → step s = .next t → P t) {n : Nat} (hs : P s)
    (h : Host.Core.run core n s = Host.Outcome.next u) : P u := by
  induction n generalizing s with
  | zero => cases h; exact hs
  | succ n ih =>
    obtain ⟨t, hnext, hrest⟩ := run_succ_cases h
    exact ih (hstep s t hs hnext) hrest

/-- Levels that the host has set for good stay on the port over a step (log 13). -/
theorem step_keeps_levels (k : KeyLevels) (s t : State) (hs : s.keyInputs = [k]) (h : step s = .next t) :
    t.keyInputs = [k] := by
  obtain ⟨hkeys, -⟩ := step_own_fields h
  rw [hkeys, hs, nextKeys]

end Sys2Proof.Machine

end

section

open Sys2Proof Sys2Proof.Machine Sys2Proof.Claims

/-- Settles O20: an instruction that leaves a fault did not complete, and each that can fail to complete takes its own. -/
theorem everyFaultHasItsListedCause : Obligations.EveryFaultHasItsListedCause := by
  unfold Obligations.EveryFaultHasItsListedCause
  intro i s t f hs he hf
  have hc : ¬ Completes i s := not_completes_of_fault hs he hf
  cases i with
  | ret ign =>
    obtain rfl := fault_of_exec_raise (exec_ret_fault ign hc) he hf
    exact ⟨rfl, rfl, Nat.not_lt.1 hc, ign, rfl⟩
  | call nnn =>
    obtain rfl := fault_of_exec_raise (exec_call_fault nnn hc) he hf
    exact ⟨rfl, rfl, Nat.not_lt.1 hc, nnn, rfl⟩
  | skp x ign =>
    obtain rfl := fault_of_exec_raise (exec_skp_fault ign hc) he hf
    exact ⟨rfl, Nat.not_le.1 hc, .inl ⟨x, ign, rfl, rfl⟩⟩
  | sknp x ign =>
    obtain rfl := fault_of_exec_raise (exec_sknp_fault ign hc) he hf
    exact ⟨rfl, Nat.not_le.1 hc, .inr ⟨x, ign, rfl, rfl⟩⟩
  | ldBVx x =>
    obtain rfl := fault_of_exec_raise (exec_ldBVx_fault x hc) he hf
    exact ⟨rfl, Nat.le_max_right _ _, .inr (.inl ⟨x, rfl⟩)⟩
  | ldMemVx x =>
    obtain rfl := fault_of_exec_raise (exec_ldMemVx_fault hc) he hf
    exact ⟨rfl, Nat.le_max_right _ _, .inr (.inr (.inl ⟨x, rfl⟩))⟩
  | ldVxMem x =>
    obtain rfl := fault_of_exec_raise (exec_ldVxMem_fault hc) he hf
    exact ⟨rfl, Nat.le_max_right _ _, .inr (.inr (.inr ⟨x, rfl⟩))⟩
  | drw x y n =>
    obtain ⟨hread, hgrid, -⟩ | ⟨g, hd, hcause⟩ := exec_drw_cases x y n s
    · exact absurd ⟨hread, hgrid⟩ hc
    · obtain rfl := fault_of_exec_raise hd he hf
      obtain ⟨a, rfl, ha⟩ | ⟨k, rfl, hk, r, c, hcell⟩ := hcause
      · exact ⟨rfl, ha, .inl ⟨x, y, n, rfl⟩⟩
      · exact ⟨rfl, hk, spill_of_cellIndex_ge hcell hk, x, y, n, rfl⟩
  | _ => exact absurd trivial hc

/-- Settles O3: reset starts from the reset state, and every other answered request leaves the record. -/
theorem onlyResetClearsAFault : Obligations.OnlyResetClearsAFault := by
  unfold Obligations.OnlyResetClearsAFault
  exact ⟨fun s => ⟨_, rfl, State.resetWith_fault s.params⟩, fun _ _ _ _ => serve_keeps_fault⟩

/-- Settles O15: the end of the step is the tick of what the instruction left, unless it left a fault. -/
theorem tickFollowsEveryStepThatDoesNotFault : Obligations.TickFollowsEveryStepThatDoesNotFault := by
  unfold Obligations.TickFollowsEveryStepThatDoesNotFault
  constructor
  · rintro s i u ⟨⟨hf, hpc⟩, hd⟩ he
    refine ⟨u.endStep, step_exec hf hpc hd he, ?_⟩
    obtain huf | ⟨f, huf⟩ := Option.eq_none_or_eq_some u.fault
    · rw [State.endStep_ok huf]
      exact ⟨fun _ => ⟨toNat_ticked u.dt, toNat_ticked u.st⟩, fun hn => absurd huf hn, rfl⟩
    · rw [State.endStep_fault huf]
      exact ⟨fun hn => absurd (huf.symm.trans hn) nofun, fun _ => ⟨rfl, rfl⟩, rfl⟩
  · rintro s ⟨⟨hf, hpc⟩, e, hd⟩
    exact ⟨_, step_unrecognised hf hpc hd, toNat_ticked s.dt, toNat_ticked s.st⟩

/-- Settles O58: the host's levels stay on the port over every run, and its byte is the next one read. -/
theorem hostInputsReachTheComingStep : Obligations.HostInputsReachTheComingStep := by
  unfold Obligations.HostInputsReachTheComingStep
  refine ⟨fun levels s => ⟨{ s with keyInputs := [levels] }, rfl, rfl, rfl, rfl, fun n u h => ?_⟩,
    fun b s => ⟨_, rfl, rfl, rfl, rfl⟩⟩
  exact State.keys_cons (run_keeps (step_keeps_levels levels) rfl h)

/-- Settles O5: the ports read the record's code and info. -/
theorem faultPortsShowCodeAndInfo : Obligations.FaultPortsShowCodeAndInfo := by
  unfold Obligations.FaultPortsShowCodeAndInfo
  refine fun s => ⟨fun h => ?none, fun f => State.portFault_of_fault, fun pc h => ?fetch, fun op a h => ?data,
    fun op sp h => ?overflow, fun op sp h => ?underflow, fun op vx h => ?key, fun op k h => ?display⟩
  case none => rw [State.portFault, h, Option.isSome_none]
  all_goals rw [State.portFaultCode_of_fault h, State.portFaultInfo_of_fault h]
  case fetch => exact ⟨rfl, BitVec.toNat_setWidth_of_le (by decide)⟩
  case data => exact ⟨rfl, toNat_word_append_ofNat op a⟩
  case overflow | underflow => exact ⟨rfl, toNat_word_append_byte op sp⟩
  case key => exact ⟨rfl, toNat_word_append_byte op vx⟩
  case display => exact ⟨rfl, toNat_word_append_ofNat op k⟩

/-- Settles O14. -/
theorem faultedMachineRefusesSteps : Obligations.FaultedMachineRefusesSteps := by
  unfold Obligations.FaultedMachineRefusesSteps
  exact fun _ _ => step_faulted

end

/-! ## Proofs of the family 70_reset_and_hazards: reset, the load and the end of a program -/

section

namespace Sys2Proof.Machine

/-! ### Memory after reset (R129, R131, R132) -/

/-- Row k of the glyph of digit d is FONT's byte 5 d + k. -/
theorem fontByte_glyph (p : Params) (d : Fin 16) (k : Fin 5) : fontByte p (5 * d.val + k.val) = p.font[d.val][k.val] := by
  have hglyph : (5 * d.val + k.val) / 5 = d.val := by omega
  have hrow : (5 * d.val + k.val) % 5 = k.val := by omega
  simp only [fontByte, hglyph, hrow, d.isLt, dif_pos]

theorem resetByte_glyph (p : Params) (d : Fin 16) (k : Fin 5) :
    resetByte p (0x050 + 5 * d.val + k.val) = p.font[d.val][k.val] := by
  have hfont : 0x050 ≤ 0x050 + 5 * d.val + k.val ∧ 0x050 + 5 * d.val + k.val < 0x0A0 := by omega
  calc resetByte p (0x050 + 5 * d.val + k.val)
      = fontByte p (0x050 + 5 * d.val + k.val - 0x050) := if_pos hfont
    _ = fontByte p (5 * d.val + k.val) := by rw [Nat.add_assoc, Nat.add_sub_cancel_left]
    _ = p.font[d.val][k.val] := fontByte_glyph p d k

theorem resetByte_outside_font (p : Params) {a : Nat} (h : a < 0x050 ∨ 0x0A0 ≤ a) :
    resetByte p a = memInitByte p.memInit a :=
  if_neg (show ¬ (0x050 ≤ a ∧ a < 0x0A0) by omega)

theorem State.resetWith_stack_getElem (p : Params) (j : Fin 16) : (State.resetWith p).stack[j.val] = 0#16 :=
  Vector.getElem_replicate j.isLt

/-! ### A byte of the image (R136) -/

/-- Byte k of a list stored at `a` stands at a + k. -/
theorem Memory.read_writeList_getElem (m : Memory) (a : Nat) {bytes : List Byte} {k : Nat}
    (h : k < bytes.length) : (m.writeList a bytes).read (a + k) = bytes[k] := by
  simp [Memory.read_writeList, h]

end Sys2Proof.Machine

namespace Sys2Proof.Claims

open Machine

variable {s : State}

/-! ### The state after reset (R128, R129, R134, R135) -/

theorem afterReset_resetWith (p : Params) : AfterReset (State.resetWith p) where
  regs := State.resetWith_reg p
  index := rfl
  pc := rfl
  sp := rfl
  stack := State.resetWith_stack_getElem p
  dt := rfl
  st := rfl
  display := rfl
  fault := rfl
  font d k := by
    rw [State.resetWith_byteAt p (by rw [Config.memSize]; omega), resetByte_glyph]
    rfl
  rest a ha houtside := (State.resetWith_byteAt p ha).trans (resetByte_outside_font p houtside)
  boot := rfl

/-- R129 says nothing of the host's inputs and the step count (R135, log 26). -/
theorem AfterReset.withInputs (h : AfterReset s) (keys : List KeyLevels) (rand : List Byte) (count : Nat) :
    AfterReset { s with keyInputs := keys, randBytes := rand, freeIndex := count } :=
  { h with }

/-! ### The load (R136) -/

theorem frame_setBoot {may : Touch} (b : BootPhase) (h : may.boot = true) : Frame may s { s with boot := b } :=
  { Frame.refl may s with boot := fun e => nomatch h.symm.trans e }

theorem frame_load (image : List Byte) :
    Frame { memFrom := 0x200, memBytes := image.length, boot := true } s
      { s.setMem (s.mem.writeList Config.progBase image) with boot := .loaded } :=
  (frame_writeList rfl rfl).trans (frame_setBoot .loaded rfl)

end Sys2Proof.Claims

namespace Sys2Proof

open Machine Claims

variable {s : State}

/-! ### The invariant after a load and after reset (R22, R24, R130, R136) -/

/-- An image within PROG_MAX stays inside memory, and the load touches nothing else of the invariant. -/
theorem inv_load {image : List Byte} (hl : image.length ≤ 3584) (h : Inv s) :
    Inv { s.setMem (s.mem.writeList Config.progBase image) with boot := .loaded } :=
  ⟨Memory.wf_writeList (by rw [Config.progBase, Config.memSize]; omega) h.memory, h.stackPointer,
    h.returnAddresses, h.programCounter⟩

theorem inv_resetWith {p : Params} (hpc : p.resetPc.toNat ≤ 0x10FE) : Inv (State.resetWith p) where
  memory := State.resetWith_wf p
  stackPointer _ := Nat.zero_le _
  returnAddresses _ j := by
    rw [State.resetWith_stack_getElem]
    exact Nat.zero_le _
  programCounter _ := hpc

/-- The invariant says nothing of the host's inputs and the step count. -/
theorem Inv.withInputs (h : Inv s) (keys : List KeyLevels) (rand : List Byte) (count : Nat) :
    Inv { s with keyInputs := keys, randBytes := rand, freeIndex := count } :=
  ⟨h.memory, h.stackPointer, h.returnAddresses, h.programCounter⟩

/-! ### A jump to itself (R138) -/

/-- A PC that can be fetched from fits the jump's 12-bit operand, so the jump undoes the fetch's advance. -/
theorem effect_jp_self (hpc : s.pc.toNat + 1 ≤ 0xFFF) : effect (.jp (s.pc.truncate 12)) s.advancePc = s := by
  have htarget : addrOperand (s.pc.truncate 12) = s.pc := by
    apply BitVec.eq_of_toNat_eq
    rw [toNat_addrOperand, BitVec.truncate_eq_setWidth, BitVec.toNat_setWidth, Nat.mod_eq_of_lt (by omega)]
  rw [effect, htarget]
  rfl

theorem fetches_of_reachedEnd (h : ReachedEnd s) : Fetches s (.jp (s.pc.truncate 12)) := by
  obtain ⟨hsafe, hpc, hd⟩ := h
  exact ⟨⟨hsafe, hpc⟩, hd⟩

/-- The step from a program's end is the tick and the turn of the model's own fields. -/
theorem step_of_reachedEnd (h : ReachedEnd s) : step s = .next s.tick.countStep := by
  have hi : Fetches s (.jp (s.pc.truncate 12)) := fetches_of_reachedEnd h
  obtain ⟨-, hpc, -⟩ := h
  rw [step_of_completes hi trivial, effect_jp_self hpc]

/-- Neither the tick nor the turn of the model's own fields touches what a program's end is about. -/
theorem reachedEnd_tick_countStep (h : ReachedEnd s) : ReachedEnd s.tick.countStep := h

end Sys2Proof

end

section

open Sys2Proof Sys2Proof.Machine Sys2Proof.Claims

/-- Settles O2: the reset port answers the reset state of the machine's parameters with the host's inputs put back. -/
theorem resetUnderEveryParameter : Obligations.ResetUnderEveryParameter := by
  unfold Obligations.ResetUnderEveryParameter
  exact ⟨fun s => ⟨_, rfl, (afterReset_resetWith s.params).withInputs _ _ _, rfl, rfl, rfl, rfl⟩,
    fun p => ⟨afterReset_resetWith p, rfl⟩, resetWith_default⟩

/-- Settles O4: a load in order is one list of bytes written, and each other load has its own refusal. -/
theorem loadCopiesTheImageOrIsRefused : Obligations.LoadCopiesTheImageOrIsRefused := by
  unfold Obligations.LoadCopiesTheImageOrIsRefused
  refine ⟨fun image s hl hb => ?_, fun _ s => hostLoad_tooLong s, fun _ _ => hostLoad_running, fun _ _ => hostLoad_loaded⟩
  exact ⟨_, hostLoad_ok hl hb, fun _ => Memory.read_writeList_getElem s.mem Config.progBase, rfl, inv_load hl,
    frame_load image⟩

/-- Settles O24: the jump leads back to its own address, so the tick is all that is left of the step. -/
theorem endOfProgramOnlyTicks : Obligations.EndOfProgramOnlyTicks := by
  unfold Obligations.EndOfProgramOnlyTicks
  exact fun s h => ⟨_, step_of_reachedEnd h, reachedEnd_tick_countStep h, rfl⟩

/-- Settles O1: State.reset is the reset state of the default parameters, and an unlisted byte is the default reset byte. -/
theorem resetZeroesRegistersAndPlacesFont : Obligations.ResetZeroesRegistersAndPlacesFont := by
  unfold Obligations.ResetZeroesRegistersAndPlacesFont
  have h : AfterReset State.reset := resetWith_default ▸ afterReset_resetWith defaultParams
  exact ⟨h.regs, h.index, h.pc, h.sp, h.stack, h.dt, h.st, Cells.get_off, h.fault, by decide,
    fun _ => resetByte_outside_font defaultParams⟩

/-- Settles O22: the reset port answers the reset state of the machine's own parameters, and the defaults' RESET_PC is in
range. -/
theorem resetMeetsTheInvariant : Obligations.ResetMeetsTheInvariant := by
  unfold Obligations.ResetMeetsTheInvariant
  refine ⟨?_, fun p => inv_resetWith, fun s t hpc hreset => ?_⟩
  · exact resetWith_default ▸ inv_resetWith (p := defaultParams) (by decide)
  · cases hreset
    exact (inv_resetWith hpc).withInputs _ _ _

end
